-- ==== Sys2Proof/Word.lean ====
section
/-! DEFINITION. The word types of the block (spec/00_scope.md section 5: a byte is 8 bits, every
integer is unsigned). -/

namespace Sys2Proof

/-- A byte: 8 bits (00_scope.md section 5). -/
abbrev Byte := BitVec 8

/-- A 16-bit field: `data_len`, `opcode`, `flags` (R50), and the width of the views HEAD and TAIL (R24). -/
abbrev Half := BitVec 16

/-- A 32-bit field: `ts32` (R50), `wall_usec` (R90), the view STAT (R24). -/
abbrev Word := BitVec 32

/-- A 64-bit time value: `wall_sec`, `mono_usec`, the override and the selected timestamp (R90, R91). -/
abbrev Long := BitVec 64

end Sys2Proof
end

