-- ==== Sys2Proof/Config.lean ====
section
/-! DEFINITION. The implementation parameters of R4 and the one free value of the model. -/

namespace Sys2Proof

/-- The parameters of R4: fixed before reset, never changed. The model takes every one of them as an
argument (R4): a state carries them, no step changes them, and a claim holds for every legal choice.
`CAP = 2^K` and `MASK = CAP - 1` are derived (`Params.cap`, `Params.mask`). -/
structure Params where
  /-- `K`, log2 of the capacity; 1 to 16 (R4, R5). -/
  k : Nat
  /-- `NPROD`, the number of producer ports; at least 1 (R4), at most 65536 beside the view STAT (R24). -/
  nprod : Nat
  /-- `NAME_W`, the width in bytes of the name field; at least 1 (R4). -/
  nameW : Nat
  /-- `EXT_TYPE_TS32` (R4, R52). -/
  extType : Byte
  /-- `OPC_NEW_INDEX` (R4, R132). -/
  opcNewIndex : Half
  /-- `TS_FLOOR_SEC` (R4, R91). -/
  tsFloorSec : Long
deriving DecidableEq, Repr

/-- The defaults of R4, which every vector of 95_test_vectors.md uses unless it says otherwise
(log entry 6: four of them are the spec's general knowledge). -/
def Params.default : Params where
  k := 6
  nprod := 2
  nameW := 8
  extType := 0x08
  opcNewIndex := 0x0000
  tsFloorSec := 1451606400

/-- The constraints of R4 and R5, and R24's bound on NPROD where STAT is implemented. -/
def Params.wf (c : Params) : Bool :=
  decide (1 ≤ c.k) && decide (c.k ≤ 16) && decide (1 ≤ c.nprod) && decide (c.nprod ≤ 65536)
    && decide (1 ≤ c.nameW)

/-- FREE VALUE (93_implementation_defined.md U5, "any value"; log entry 8): what slot `a` of `storage`
holds before anything has been pushed into it since `INIT` (R29: "unspecified, each byte any value"). -/
opaque Config.unspecifiedByte : Nat → Byte

end Sys2Proof
end

