-- ==== Sys2Proof/Syntax.lean ====
section
/-! DEFINITION. The operations of the block as one inductive: a constructor for every row of
spec/opcode_table.json (the twelve operations of R58, the reserved range, the two wire patterns). -/

namespace Sys2Proof

/-- One answer of the time port (R57, R90, R95): inputs that the block does not control. -/
structure TimeAnswer where
  wallOk : Bool
  wallSec : Long
  wallUsec : Word
  monoUsec : Long
deriving DecidableEq, Repr

/-- A step label: which operation is attempted, with its operands and with the free inputs the step
draws (the time answer of an accepted request, R95 and R112; the producer chosen by a grant, R114). -/
inductive Instr where
  /-- OPSEL 0x0, R160: the host resets the block. -/
  | init
  /-- OPSEL 0x1, R72: one push attempt on behalf of the holder of the session lock. -/
  | rbPush (b : Byte)
  /-- OPSEL 0x2, R73: the transmitter pulls. -/
  | rbPull
  /-- OPSEL 0x3, R75: kick the transmitter. -/
  | rbKick
  /-- OPSEL 0x4, R91: select the timestamp. -/
  | heTsmux (ovr : Option Long) (time : TimeAnswer)
  /-- OPSEL 0x5, R94: encode a header for a payload of `len` bytes. -/
  | heEncode (opcode : Half) (len : Nat) (ovr : Option Long) (time : TimeAnswer)
  /-- OPSEL 0x6, R114: the framer grants the lock to producer `p`. -/
  | msAcquire (p : Nat)
  /-- OPSEL 0x7, R117: the framer releases the lock and completes the request. -/
  | msRelease
  /-- OPSEL 0x8, R110: producer `p` asks to send `payload`. -/
  | msSend (p : Nat) (opcode : Half) (payload : List Byte) (time : TimeAnswer)
  /-- OPSEL 0x9, R111: producer `p` asks to send the fragments in order. -/
  | msSendFrag (p : Nat) (opcode : Half) (frags : List (List Byte)) (time : TimeAnswer)
  /-- OPSEL 0xA, R130: producer `p` asks to send a "new index" record. -/
  | ixRegisterIndex (p : Nat) (busId : Byte) (address : Vector Byte 6) (name : List Byte)
      (time : TimeAnswer)
  /-- OPSEL 0xB, R116: the framer attempts the next byte of the lock owner's record. -/
  | msEmit
  /-- OPSEL 0xC to 0xF, R59: reserved; the two low bits of the OPSEL are free. -/
  | reserved (low : BitVec 2)
  /-- The wire pattern of R50 (no OPSEL): a header as it stands on the wire. -/
  | monitorHeader (dataLen opcode : Half) (extType : Byte) (ts32 : Word)
  /-- The wire pattern of R53 drawn for NAME_W = 8 (no OPSEL): an index record payload, `name` being
  the seven bytes before the final 0x00. -/
  | indexRecord (bus : Byte) (address : Vector Byte 6) (name : Vector Byte 7)
deriving DecidableEq, Repr

end Sys2Proof
end

