-- ==== Sys2Proof/WellFormed.lean ====
section
/-! DEFINITION. Which step labels are well formed: the operand domains of R56, R90, R114 and R130, and
the widths of the model's own operand bytes (log entry 1). -/

namespace Sys2Proof

/-- A producer port number fits the 16 bits of STAT's OWNER field (R24). -/
def portFits (p : Nat) : Bool := decide (p < 65536)

/-- A length fits the 32 bits of `req_len` (R61). -/
def lenFits (n : Nat) : Bool := decide (n < 4294967296)

/-- The operands fit the operand bytes of the model's encoding (log entry 1). -/
def Instr.fits : Instr → Bool
  | .init => true
  | .rbPush _ => true
  | .rbPull => true
  | .rbKick => true
  | .heTsmux _ _ => true
  | .heEncode _ len _ _ => lenFits len
  | .msAcquire p => portFits p
  | .msRelease => true
  | .msSend p _ payload _ => portFits p && lenFits payload.length
  | .msSendFrag p _ frags _ =>
      portFits p && lenFits frags.length && frags.all (fun f => lenFits f.length)
  | .ixRegisterIndex p _ _ name _ => portFits p && lenFits name.length
  | .msEmit => true
  | .reserved _ => true
  | .monitorHeader _ _ _ _ => true
  | .indexRecord _ _ _ => true

/-- R56, R130: the `name` operand holds no byte 0x00. Every other operand of every operation takes any
value of its width. -/
def nulFree (name : List Byte) : Bool := name.all (fun b => b != 0)

/-- The operand domain of R56 and R130. -/
def Instr.inDomain : Instr → Bool
  | .init => true
  | .rbPush _ => true
  | .rbPull => true
  | .rbKick => true
  | .heTsmux _ _ => true
  | .heEncode _ _ _ _ => true
  | .msAcquire _ => true
  | .msRelease => true
  | .msSend _ _ _ _ => true
  | .msSendFrag _ _ _ _ => true
  | .ixRegisterIndex _ _ _ name _ => nulFree name
  | .msEmit => true
  | .reserved _ => true
  | .monitorHeader _ _ _ _ => true
  | .indexRecord _ _ _ => true

/-- A well-formed step label. -/
def Instr.wf (i : Instr) : Bool := i.fits && i.inDomain

end Sys2Proof
end

