-- ==== Sys2Proof/Decode.lean ====
section
/-! DEFINITION. Decoding a step label from bytes, and after it the encoder. The label byte carries the
OPSEL of R58 in bits 3:0 with bits 7:4 zero; the two wire patterns of the operation table, which have no
OPSEL, stand behind the model's own label bytes 0x10 (R50) and 0x11 (R53). The spec gives operands no
bits: their bytes are the model's own, every number little-endian as R30 has it (log entry 1). -/

namespace Sys2Proof

/-- Why a byte stream is no step label. -/
inductive DecodeError where
  /-- The stream ends inside a label. -/
  | truncated
  /-- The label byte is none of 0x00 to 0x11. -/
  | unknownLabel (b : Byte)
  /-- A one-bit operand is neither 0 nor 1. -/
  | badBit (b : Byte)
  /-- A fixed byte of a wire pattern (R50: 0x05, 0x00, 0x00; R53: 0x00, 0x00) has another value. -/
  | badFixedByte (b : Byte)
deriving DecidableEq, Repr

/-! ### Reading operands -/

/-- One byte. -/
def readByte : List Byte → Except DecodeError (Byte × List Byte)
  | [] => .error .truncated
  | b :: bs => .ok (b, bs)

/-- `n` bytes as one number, least significant byte first (R30). -/
def readNat : Nat → List Byte → Except DecodeError (Nat × List Byte)
  | 0, bs => .ok (0, bs)
  | _ + 1, [] => .error .truncated
  | n + 1, b :: bs => do
    let (v, rest) ← readNat n bs
    .ok (b.toNat + 256 * v, rest)

/-- `n` bytes as they stand. -/
def readBytes : Nat → List Byte → Except DecodeError (List Byte × List Byte)
  | 0, bs => .ok ([], bs)
  | _ + 1, [] => .error .truncated
  | n + 1, b :: bs => do
    let (v, rest) ← readBytes n bs
    .ok (b :: v, rest)

/-- A one-bit operand in a byte of its own. -/
def readBit (bs : List Byte) : Except DecodeError (Bool × List Byte) := do
  let (b, bs) ← readByte bs
  if b = 0 then .ok (false, bs) else if b = 1 then .ok (true, bs) else .error (.badBit b)

/-- A byte that must have the value `v`. -/
def readFixed (v : Byte) (bs : List Byte) : Except DecodeError (Unit × List Byte) := do
  let (b, bs) ← readByte bs
  if b = v then .ok ((), bs) else .error (.badFixedByte b)

/-- A 16-bit field. -/
def readHalf (bs : List Byte) : Except DecodeError (Half × List Byte) := do
  let (v, bs) ← readNat 2 bs
  .ok (BitVec.ofNat 16 v, bs)

/-- A 32-bit field. -/
def readWord (bs : List Byte) : Except DecodeError (Word × List Byte) := do
  let (v, bs) ← readNat 4 bs
  .ok (BitVec.ofNat 32 v, bs)

/-- A 64-bit field. -/
def readLong (bs : List Byte) : Except DecodeError (Long × List Byte) := do
  let (v, bs) ← readNat 8 bs
  .ok (BitVec.ofNat 64 v, bs)

/-- A list of bytes behind its 32-bit length. -/
def readList (bs : List Byte) : Except DecodeError (List Byte × List Byte) := do
  let (n, bs) ← readNat 4 bs
  readBytes n bs

/-- `n` lists of bytes, each behind its length. -/
def readLists : Nat → List Byte → Except DecodeError (List (List Byte) × List Byte)
  | 0, bs => .ok ([], bs)
  | n + 1, bs => do
    let (f, bs) ← readList bs
    let (fs, bs) ← readLists n bs
    .ok (f :: fs, bs)

/-- The fragment list of `SEND_FRAG` (R56): its 32-bit count, then the fragments. -/
def readFrags (bs : List Byte) : Except DecodeError (List (List Byte) × List Byte) := do
  let (n, bs) ← readNat 4 bs
  readLists n bs

/-- Exactly six bytes (R56, `address`). -/
def readSix (bs : List Byte) : Except DecodeError (Vector Byte 6 × List Byte) := do
  let (a, bs) ← readByte bs
  let (b, bs) ← readByte bs
  let (c, bs) ← readByte bs
  let (d, bs) ← readByte bs
  let (e, bs) ← readByte bs
  let (f, bs) ← readByte bs
  .ok (#v[a, b, c, d, e, f], bs)

/-- Exactly seven bytes (the `n` bytes of the table's INDEX_RECORD pattern). -/
def readSeven (bs : List Byte) : Except DecodeError (Vector Byte 7 × List Byte) := do
  let (a, bs) ← readByte bs
  let (b, bs) ← readByte bs
  let (c, bs) ← readByte bs
  let (d, bs) ← readByte bs
  let (e, bs) ← readByte bs
  let (f, bs) ← readByte bs
  let (g, bs) ← readByte bs
  .ok (#v[a, b, c, d, e, f, g], bs)

/-- A time answer: `wall_ok`, `wall_sec`, `wall_usec`, `mono_usec` in the order of R57. -/
def readTime (bs : List Byte) : Except DecodeError (TimeAnswer × List Byte) := do
  let (ok, bs) ← readBit bs
  let (sec, bs) ← readLong bs
  let (usec, bs) ← readWord bs
  let (mono, bs) ← readLong bs
  .ok (⟨ok, sec, usec, mono⟩, bs)

/-- The override: a presence bit, then its 64 bits where it is present. -/
def readOvr (bs : List Byte) : Except DecodeError (Option Long × List Byte) := do
  let (present, bs) ← readBit bs
  if present then do
    let (t, bs) ← readLong bs
    .ok (some t, bs)
  else .ok (none, bs)

/-! ### The decoder -/

def readHeTsmux (bs : List Byte) : Except DecodeError (Instr × List Byte) := do
  let (ovr, bs) ← readOvr bs
  let (time, bs) ← readTime bs
  .ok (.heTsmux ovr time, bs)

def readHeEncode (bs : List Byte) : Except DecodeError (Instr × List Byte) := do
  let (opcode, bs) ← readHalf bs
  let (len, bs) ← readNat 4 bs
  let (ovr, bs) ← readOvr bs
  let (time, bs) ← readTime bs
  .ok (.heEncode opcode len ovr time, bs)

def readMsSend (bs : List Byte) : Except DecodeError (Instr × List Byte) := do
  let (p, bs) ← readNat 2 bs
  let (opcode, bs) ← readHalf bs
  let (payload, bs) ← readList bs
  let (time, bs) ← readTime bs
  .ok (.msSend p opcode payload time, bs)

def readMsSendFrag (bs : List Byte) : Except DecodeError (Instr × List Byte) := do
  let (p, bs) ← readNat 2 bs
  let (opcode, bs) ← readHalf bs
  let (frags, bs) ← readFrags bs
  let (time, bs) ← readTime bs
  .ok (.msSendFrag p opcode frags time, bs)

def readIxRegisterIndex (bs : List Byte) : Except DecodeError (Instr × List Byte) := do
  let (p, bs) ← readNat 2 bs
  let (busId, bs) ← readByte bs
  let (address, bs) ← readSix bs
  let (name, bs) ← readList bs
  let (time, bs) ← readTime bs
  .ok (.ixRegisterIndex p busId address name time, bs)

/-- The pattern of R50: bytes 0 to 11 of a header. -/
def readMonitorHeader (bs : List Byte) : Except DecodeError (Instr × List Byte) := do
  let (dataLen, bs) ← readHalf bs
  let (_, bs) ← readFixed 0x05 bs
  let (opcode, bs) ← readHalf bs
  let (_, bs) ← readFixed 0x00 bs
  let (_, bs) ← readFixed 0x00 bs
  let (extType, bs) ← readByte bs
  let (ts32, bs) ← readWord bs
  .ok (.monitorHeader dataLen opcode extType ts32, bs)

/-- The pattern of R53 for NAME_W = 8: bytes 0 to 15 of an index record payload. -/
def readIndexRecord (bs : List Byte) : Except DecodeError (Instr × List Byte) := do
  let (_, bs) ← readFixed 0x00 bs
  let (bus, bs) ← readByte bs
  let (address, bs) ← readSix bs
  let (name, bs) ← readSeven bs
  let (_, bs) ← readFixed 0x00 bs
  .ok (.indexRecord bus address name, bs)

/-- The operands that follow the label byte `label` (the table of R58 and R59). -/
def readOperands (label : Byte) (bs : List Byte) : Except DecodeError (Instr × List Byte) :=
  match label.toNat with
  | 0x0 => .ok (.init, bs)
  | 0x1 => do
    let (b, bs) ← readByte bs
    .ok (.rbPush b, bs)
  | 0x2 => .ok (.rbPull, bs)
  | 0x3 => .ok (.rbKick, bs)
  | 0x4 => readHeTsmux bs
  | 0x5 => readHeEncode bs
  | 0x6 => do
    let (p, bs) ← readNat 2 bs
    .ok (.msAcquire p, bs)
  | 0x7 => .ok (.msRelease, bs)
  | 0x8 => readMsSend bs
  | 0x9 => readMsSendFrag bs
  | 0xA => readIxRegisterIndex bs
  | 0xB => .ok (.msEmit, bs)
  | 0xC => .ok (.reserved 0, bs)
  | 0xD => .ok (.reserved 1, bs)
  | 0xE => .ok (.reserved 2, bs)
  | 0xF => .ok (.reserved 3, bs)
  | 0x10 => readMonitorHeader bs
  | 0x11 => readIndexRecord bs
  | _ => .error (.unknownLabel label)

/-- Reads one step label from the head of a byte stream, with what is left of the stream. Total: every
stream gives an instruction or an error with a name. -/
def decode (bs : List Byte) : Except DecodeError (Instr × List Byte) := do
  let (label, bs) ← readByte bs
  readOperands label bs

/-! ### The encoder -/

/-- The low `n` bytes of `v`, least significant first (R30). -/
def writeNat : Nat → Nat → List Byte
  | 0, _ => []
  | n + 1, v => BitVec.ofNat 8 v :: writeNat n (v / 256)

def writeBit (b : Bool) : List Byte := [if b then 1 else 0]

def writeHalf (v : Half) : List Byte := writeNat 2 v.toNat

def writeWord (v : Word) : List Byte := writeNat 4 v.toNat

def writeLong (v : Long) : List Byte := writeNat 8 v.toNat

def writeList (bs : List Byte) : List Byte := writeNat 4 bs.length ++ bs

def writeLists : List (List Byte) → List Byte
  | [] => []
  | f :: fs => writeList f ++ writeLists fs

def writeFrags (fs : List (List Byte)) : List Byte := writeNat 4 fs.length ++ writeLists fs

def writeTime (t : TimeAnswer) : List Byte :=
  writeBit t.wallOk ++ writeLong t.wallSec ++ writeWord t.wallUsec ++ writeLong t.monoUsec

def writeOvr : Option Long → List Byte
  | none => writeBit false
  | some t => writeBit true ++ writeLong t

/-- The label byte of an operation: its OPSEL (R58), or the model's own label of a wire pattern. -/
def Instr.label : Instr → Byte
  | .init => 0x0
  | .rbPush _ => 0x1
  | .rbPull => 0x2
  | .rbKick => 0x3
  | .heTsmux _ _ => 0x4
  | .heEncode _ _ _ _ => 0x5
  | .msAcquire _ => 0x6
  | .msRelease => 0x7
  | .msSend _ _ _ _ => 0x8
  | .msSendFrag _ _ _ _ => 0x9
  | .ixRegisterIndex _ _ _ _ _ => 0xA
  | .msEmit => 0xB
  | .reserved low => 0xC + low.setWidth 8
  | .monitorHeader _ _ _ _ => 0x10
  | .indexRecord _ _ _ => 0x11

/-- The operand bytes of an operation. -/
def Instr.operandBytes : Instr → List Byte
  | .init => []
  | .rbPush b => [b]
  | .rbPull => []
  | .rbKick => []
  | .heTsmux ovr time => writeOvr ovr ++ writeTime time
  | .heEncode opcode len ovr time =>
      writeHalf opcode ++ writeNat 4 len ++ writeOvr ovr ++ writeTime time
  | .msAcquire p => writeNat 2 p
  | .msRelease => []
  | .msSend p opcode payload time =>
      writeNat 2 p ++ writeHalf opcode ++ writeList payload ++ writeTime time
  | .msSendFrag p opcode frags time =>
      writeNat 2 p ++ writeHalf opcode ++ writeFrags frags ++ writeTime time
  | .ixRegisterIndex p busId address name time =>
      writeNat 2 p ++ [busId] ++ address.toList ++ writeList name ++ writeTime time
  | .msEmit => []
  | .reserved _ => []
  | .monitorHeader dataLen opcode extType ts32 =>
      writeHalf dataLen ++ [0x05] ++ writeHalf opcode ++ [0x00, 0x00] ++ [extType] ++ writeWord ts32
  | .indexRecord bus address name => [0x00, bus] ++ address.toList ++ name.toList ++ [0x00]

/-- The bytes of a step label. -/
def encode (i : Instr) : List Byte := i.label :: i.operandBytes

/-! ### Words as spec/opcode_table.json numbers them -/

/-- The bytes that a word of the table stands for: an 8-bit (or 4-bit) row is the label byte itself, a
96-bit row is a header behind the label 0x10, a 128-bit row an index record behind the label 0x11. Zero
bytes follow, for the operands that the table gives no bits. -/
def tableBytes (nbits w : Nat) : List Byte :=
  if nbits ≤ 8 then writeNat 1 w ++ List.replicate 48 0
  else if nbits = 96 then 0x10 :: (writeNat 12 w ++ List.replicate 48 0)
  else if nbits = 128 then 0x11 :: (writeNat 16 w ++ List.replicate 48 0)
  else []

/-- The instruction that the decoder reads from a word of spec/opcode_table.json. -/
def decodeTableWord (nbits w : Nat) : Option Instr :=
  match decode (tableBytes nbits w) with
  | .ok (i, _) => some i
  | .error _ => none

end Sys2Proof
end

