-- ==== Sys2Proof/Machine/State.lean ====
section
/-! DEFINITION. The state of the block (spec/10_state.md), its fault and its refusals. -/

namespace Sys2Proof.Machine

open Sys2Proof

/-- What is in a producer port's request slot (R17): `Idle`, or `Pending` with the header staging
registers `HDR[p][0..11]`, the payload `pay[p]` and the bit `ovf[p]`. -/
inductive Req where
  | idle
  | pending (hdr : Vector Byte 12) (pay : List Byte) (ovf : Bool)
deriving DecidableEq, Repr

/-- Where in its life the block is (R161, R162; log entry 3). -/
inductive Phase where
  /-- Before `INIT`: no operation has a meaning (R162). -/
  | beforeInit
  /-- Right after reset, no step taken since: `INIT` as the first step of a run is still admitted. -/
  | justReset
  /-- A step has been taken since reset: `INIT` is refused (R161). -/
  | running
deriving DecidableEq, Repr

/-- What the last step answered (00_scope.md section 6, R56, R57): the model's own observation, read by
nothing in the block (log entry 5). -/
inductive Answer where
  /-- No step has answered since reset. -/
  | nothing
  /-- `INIT` is done (R160). -/
  | initDone
  /-- Outcome DONE of a push attempt (R72, R116). -/
  | done
  /-- Outcome HOLD of a push attempt on a full buffer (R72, R116). -/
  | hold
  /-- The step attempted was not enabled: nothing has changed (log entry 4). -/
  | notEnabled
  /-- `RB.PULL` answers `None` or `Some b` (R73). -/
  | pulled (b : Option Byte)
  /-- `RB.KICK` has no result (R75). -/
  | kicked
  /-- `HE.TSMUX` answers a timestamp in microseconds (R91). -/
  | micros (t : Long)
  /-- `HE.ENCODE` answers twelve bytes (R94). -/
  | header (h : Vector Byte 12)
  /-- A request on port `p` was accepted (R112). -/
  | accepted (p : Nat)
  /-- The lock was granted to producer `p` (R114). -/
  | granted (p : Nat)
  /-- Port `p` completes with `DONE(status)` (R117, R56). -/
  | completed (p : Nat) (status : Nat)
deriving DecidableEq, Repr

/-- The machine. Everything but `phase`, `answer` and `feed` is state that spec/10_state.md names; `cfg`
holds the parameters of R4, which no step changes. -/
structure State where
  /-- The parameters of R4 (log entry 6). -/
  cfg : Params
  /-- The model's own: before `INIT`, just reset, or running (R161, R162). -/
  phase : Phase
  /-- `storage` (R10): the slots pushed into since `INIT`, slot numbers rising; a slot that is not
  listed is unspecified (R29, log entry 8). -/
  storage : List Host.Cell
  /-- `head` (R11): the next write slot, in the low `K` bits. -/
  head : Half
  /-- `tail` (R11): the next read slot, in the low `K` bits. -/
  tail : Half
  /-- `tx_active` (R15). -/
  txActive : Bool
  /-- `lock_owner` (R16). -/
  lockOwner : Option Nat
  /-- `req[p]` (R17), one per producer port. -/
  req : List Req
  /-- `pos` (R18). -/
  pos : Nat
  /-- `F_OVERLEN` (R19). -/
  fOverlen : Bool
  /-- `wire` (R20): the bytes pulled since reset, oldest first. -/
  wire : List Byte
  /-- The model's own: what the last step answered. -/
  answer : Answer
  /-- The model's own: the step labels still to be taken, in the order the agents take them (R6, R39;
  log entry 2). -/
  feed : List Byte
deriving DecidableEq, Repr

/-- The memory of the block has canonical form: slot numbers strictly rising. An unlisted slot has no
value the model knows, so no listed entry can repeat it (log entry 8). -/
abbrev Memory.wf (m : List Host.Cell) : Bool :=
  decide (m.Pairwise (fun x y => x.1 < y.1))

/-- The faults. -/
inductive Fault where
  /-- R141, 93_implementation_defined.md U1: a request longer than 65526 bytes was accepted, so
  `F_OVERLEN = 1`. REPORTED, never raised by a step: R141 has the block go on, so `State.fault?` reports
  it of the state while the steps run as usual. Safe: no claim about the wire is made of such a run. -/
  | overLength
  /-- Raised by `RB.PUSH`, `RB.PULL` and `MS.EMIT` when an index register holds a slot number above
  `MASK`. R37 gives the block no such address; that the access faults is the model's choice (log entry
  9). Safe, and never raised from a state that meets the invariant `StateInv` (R11). -/
  | noSuchSlot
deriving DecidableEq, Repr

/-- The refusals: the request is outside what the block gives a meaning, and no state changes
(00_scope.md section 6). Each is safe: the run stops where the spec gives the block no step. -/
inductive Refusal where
  /-- Raised by no meaning: an instruction without a meaning of its own. -/
  | notModelled (mnemonic : String)
  /-- Raised by every operation before `INIT` (R162). -/
  | beforeInit
  /-- Raised by `INIT` when it is not the first step of a run (R161). -/
  | initNotFirst
  /-- Raised by OPSEL 0xC to 0xF (R59). -/
  | reservedOpsel (low : BitVec 2)
  /-- Raised by MONITOR_HEADER: a header on the wire is data, no operation of R58 (log entry 14). -/
  | headerIsNoOperation
  /-- Raised by INDEX_RECORD: a payload on the wire is data, no operation of R58 (log entry 14). -/
  | recordIsNoOperation
  /-- Raised by the producer requests and `MS.ACQUIRE` for a port number of no port (R56, R114). -/
  | noSuchPort
  /-- Raised by `RB.PUSH` while nobody holds the session lock (R83, 92_eei_decisions.md D32). -/
  | pushWithoutLock
  /-- Raised by `IX.REGISTER_INDEX` for a name that holds 0x00 (R131 corner case (e)). -/
  | nameHasNul
  /-- Raised by `step` when the feed is no step label (log entry 1). -/
  | undecodable (e : DecodeError)
deriving DecidableEq, Repr

/-- The state right after reset, R29, for the parameters `c`; `phase`, `answer` and `feed` are the
model's own (log entries 2, 3 and 5). -/
def State.resetOf (c : Params) : State where
  cfg := c
  phase := .justReset
  storage := []
  head := 0
  tail := 0
  txActive := false
  lockOwner := none
  req := List.replicate c.nprod .idle
  pos := 0
  fOverlen := false
  wire := []
  answer := .nothing
  feed := []

/-- The machine right after reset (R29), with the default parameters of R4. -/
def State.reset : State := State.resetOf Params.default

end Sys2Proof.Machine
end

