-- ==== Sys2Proof/Machine/Flags.lean ====
section
/-! DEFINITION. The capacity and the wrap mask (R4), the index arithmetic (R70), the derived flags EMPTY,
FULL, COUNT and LOCKED (R12 to R14, R16), the overlength condition (R141) and the views STAT, HEAD and
TAIL (R24). No operation of the block sets a carry, zero, sign or overflow flag (R23). -/

namespace Sys2Proof.Machine

open Sys2Proof

/-- `CAP = 2^K` (R4). -/
def capOf (c : Params) : Nat := 2 ^ c.k

/-- `MASK = CAP - 1` (R4). -/
def maskOf (c : Params) : Half := BitVec.ofNat 16 (capOf c - 1)

/-- `inc_wrap(i) = (i + 1) & MASK` (R70). -/
def incWrap (c : Params) (i : Half) : Half := (i + 1) &&& maskOf c

/-- `EMPTY`: `head == tail` (R12). -/
def isEmpty (s : State) : Bool := s.head == s.tail

/-- `FULL`: `inc_wrap(head) == tail` (R13). -/
def isFull (s : State) : Bool := incWrap s.cfg s.head == s.tail

/-- `COUNT = (head - tail) & MASK` (R14). -/
def countOf (s : State) : Half := (s.head - s.tail) &&& maskOf s.cfg

/-- `LOCKED`: `lock_owner != None` (R16). -/
def isLocked (s : State) : Bool := s.lockOwner.isSome

/-- The field OWNER of STAT: the lock owner's port, 0 while the lock is free (R24). -/
def ownerField (s : State) : Half :=
  match s.lockOwner with
  | none => 0
  | some p => BitVec.ofNat 16 p

/-- The view STAT, bit 31 first: OWNER, eleven reserved zeros, F_OVERLEN, LOCKED, TX_ACTIVE, FULL,
EMPTY (R24). -/
def statView (s : State) : Word :=
  ownerField s ++ (0 : BitVec 11) ++ BitVec.ofBool s.fOverlen ++ BitVec.ofBool (isLocked s)
    ++ BitVec.ofBool s.txActive ++ BitVec.ofBool (isFull s) ++ BitVec.ofBool (isEmpty s)

/-- The view HEAD: `zext_16(head)` (R24). -/
def headView (s : State) : Half := s.head

/-- The view TAIL: `zext_16(tail)` (R24). -/
def tailView (s : State) : Half := s.tail

/-- The length budget is exceeded: `9 + L > 65535` (R17 `ovf`, R141). -/
def isOverLength (len : Nat) : Bool := decide (9 + len > 65535)

/-- The fault a state reports: `F_OVERLEN = 1` is a fault (R141, 93_implementation_defined.md U1),
though no step stops for it. -/
def State.fault? (s : State) : Option Fault := if s.fOverlen then some .overLength else none

end Sys2Proof.Machine
end

