-- ==== Sys2Proof/Machine/Operands.lean ====
section
/-! DEFINITION. How wire fields are assembled from operands: little-endian serialisation (R30), the
length fields (R92), the timestamp multiplexer and its scaling (R91, R93), the header (R50, R94), the
index record and its name field (R53, R131), the concatenation of fragments (R111). All of it is pure. -/

namespace Sys2Proof.Machine

open Sys2Proof

/-- `hdr_len = 5` (R52, R92). -/
def hdrLen : Byte := 5

/-- `data_len = (4 + hdr_len + L) mod 2^16` (R92). -/
def dataLen (len : Nat) : Half := BitVec.ofNat 16 (4 + hdrLen.toNat + len)

/-- `HE.TSMUX` (R91): the override; else a wall clock at or after the floor; else the monotonic
counter. Microseconds, modulo 2^64. -/
def tsMux (c : Params) (ovr : Option Long) (time : TimeAnswer) : Long :=
  match ovr with
  | some t0 => t0
  | none =>
    if time.wallOk = true ∧ c.tsFloorSec ≤ time.wallSec then
      BitVec.ofNat 64 (time.wallSec.toNat * 1000000 + time.wallUsec.toNat)
    else time.monoUsec

/-- `ts32 = (t / 100) mod 2^32` (R93). -/
def tickOf (t : Long) : Word := BitVec.ofNat 32 (t.toNat / 100)

/-- The twelve header bytes for given field values, in the order of R50; `flags` is 0x0000 (R52). -/
def headerBytes (c : Params) (dataLen opcode : Half) (ts32 : Word) : Vector Byte 12 :=
  #v[dataLen.extractLsb' 0 8, dataLen.extractLsb' 8 8, hdrLen,
     opcode.extractLsb' 0 8, opcode.extractLsb' 8 8, 0x00, 0x00, c.extType,
     ts32.extractLsb' 0 8, ts32.extractLsb' 8 8, ts32.extractLsb' 16 8, ts32.extractLsb' 24 8]

/-- `HE.ENCODE` (R94). -/
def encodeHeader (c : Params) (opcode : Half) (len : Nat) (ovr : Option Long) (time : TimeAnswer) :
    Vector Byte 12 :=
  headerBytes c (dataLen len) opcode (tickOf (tsMux c ovr time))

/-- The record of a pending producer: `HDR[p][0..12] ++ pay[p]` (R17). -/
def recordOf (hdr : Vector Byte 12) (pay : List Byte) : List Byte := hdr.toList ++ pay

/-- `namefield(name)` for a field of `w` bytes (R131). -/
def nameField (w : Nat) (name : List Byte) : List Byte :=
  if w ≤ name.length then name.take (w - 1) ++ [0x00]
  else name ++ List.replicate (w - name.length) 0x00

/-- The payload of a "new index" record: type 0x00, bus, address, name field (R53, R130). -/
def indexPayload (c : Params) (busId : Byte) (address : Vector Byte 6) (name : List Byte) :
    List Byte :=
  [0x00, busId] ++ address.toList ++ nameField c.nameW name

/-- The payload of a fragmented send: the fragments in order (R111). -/
def fragsPayload (frags : List (List Byte)) : List Byte := frags.flatten

end Sys2Proof.Machine
end

