-- ==== Sys2Proof/Machine/Ops.lean ====
section
/-! DEFINITION. The named operations over `storage` and the registers that the meanings share: the one
byte read and the one byte write (R34), the kick (R75), one push attempt (R72), one pull (R73), the
acceptance of a request (R112), the next byte of the owner's record (R116), reset (R160).

THE BLOCK HAS NO EXCEPTION (R140): there is no cause, no saved register, no handler, so there is no
operation that takes one. Its one interrupt-like event is the drain event; entering it saves nothing and
changes no mode (R151), its whole service is `RB.PULL`, and returning from it is that operation's answer
(R152). The one condition that the spec marks as a fault sets `F_OVERLEN` in `acceptRequest` (R141). -/

namespace Sys2Proof.Machine

open Sys2Proof

/-- The outcome of a step. -/
abbrev Res := Host.Outcome State Fault Refusal

/-! ### Storage -/

/-- The byte listed for slot `a`, if any. -/
def Memory.find : List Host.Cell → Nat → Option Byte
  | [], _ => none
  | (x, v) :: m, a => if x = a then some v else Memory.find m a

/-- The byte that slot `a` holds: the byte last pushed into it, or an unspecified one (R29). -/
def Memory.get (m : List Host.Cell) (a : Nat) : Byte :=
  (Memory.find m a).getD (Config.unspecifiedByte a)

/-- Puts `v` in slot `a`, keeping the list in order. -/
def Memory.put : List Host.Cell → Nat → Byte → List Host.Cell
  | [], a, v => [(a, v)]
  | (x, w) :: m, a, v =>
    if a < x then (a, v) :: (x, w) :: m
    else if a = x then (a, v) :: m
    else (x, w) :: Memory.put m a v

/-- `MemRead(a, 1)` (R34, R36): no side effect; no slot above `MASK` exists (R37). -/
def memRead (s : State) (a : Half) : Option Byte :=
  if a.toNat < capOf s.cfg then some (Memory.get s.storage a.toNat) else none

/-- `MemWrite(a, 1, v)` (R34); no slot above `MASK` exists (R37). -/
def memWrite (s : State) (a : Half) (v : Byte) : Option State :=
  if a.toNat < capOf s.cfg then some { s with storage := Memory.put s.storage a.toNat v } else none

/-- The queued bytes, oldest first: `n` slots from `i` on (R14). -/
def slotsFrom (c : Params) (m : List Host.Cell) : Nat → Half → List Byte
  | 0, _ => []
  | n + 1, i => Memory.get m i.toNat :: slotsFrom c m n (incWrap c i)

/-- The bytes in the ring buffer, oldest first (R14). -/
def queued (s : State) : List Byte := slotsFrom s.cfg s.storage (countOf s).toNat s.tail

/-! ### Answers -/

/-- A step answers `a`; from now on a step has been taken (log entries 3 and 5). -/
def reply (s : State) (a : Answer) : State := { s with answer := a, phase := .running }

/-- R162: before `INIT` every operation is refused. -/
def afterInit (s : State) (r : Res) : Res :=
  match s.phase with
  | .beforeInit => .refused .beforeInit
  | .justReset => r
  | .running => r

/-! ### The ring buffer -/

/-- `KICK()`: `tx_active <- 1` (R75). -/
def kick (s : State) : State := { s with txActive := true }

/-- What one push attempt did (R72). -/
inductive Attempt where
  /-- DONE: the byte is stored. -/
  | done (t : State)
  /-- HOLD: the buffer is full. -/
  | hold (t : State)
  /-- `head` is no slot number (R37). -/
  | noSlot

/-- One attempt of `RB.PUSH(b)` (R72): on a full buffer kick and hold; else write the slot, advance
`head`, kick. -/
def pushAttempt (b : Byte) (s : State) : Attempt :=
  if isFull s then .hold (kick s)
  else
    match memWrite s s.head b with
    | none => .noSlot
    | some t => .done (kick { t with head := incWrap s.cfg s.head })

/-- One `RB.PULL` (R73): on an empty buffer stop the transmitter and answer `None`; else read the slot,
advance `tail`, append to `wire`. `none` where `tail` is no slot number (R37). -/
def pullOne (s : State) : Option (Option Byte × State) :=
  if isEmpty s then some (none, { s with txActive := false })
  else
    match memRead s s.tail with
    | none => none
    | some b =>
      some (some b, { s with tail := incWrap s.cfg s.tail, wire := s.wire ++ [b] })

/-! ### The session -/

/-- `accept(p, opcode, payload)` (R112) with the answer `time` of `READ_TIME`: enabled only when the
port is idle; the header is encoded with no override, and an over-long payload sets `F_OVERLEN`. -/
def acceptRequest (p : Nat) (opcode : Half) (payload : List Byte) (time : TimeAnswer) (s : State) :
    Res :=
  match s.req[p]? with
  | none => .refused .noSuchPort
  | some (.pending _ _ _) => .next (reply s .notEnabled)
  | some .idle =>
    .next (reply
      { s with
        req := s.req.set p
          (.pending (encodeHeader s.cfg opcode payload.length none time) payload
            (isOverLength payload.length))
        fOverlen := s.fOverlen || isOverLength payload.length }
      (.accepted p))

/-- `pos <- pos + 1`, and the kick of the header block when `pos` becomes 12 (R116, R76 (b)). -/
def advancePos (s : State) : State :=
  if s.pos + 1 = 12 then kick { s with pos := s.pos + 1 } else { s with pos := s.pos + 1 }

/-- The record the lock owner is sending, while the lock is held (R16, R17). -/
def ownerRecord (s : State) : Option (List Byte) :=
  match s.lockOwner with
  | none => none
  | some p =>
    match s.req[p]? with
    | some (.pending hdr pay _) => some (recordOf hdr pay)
    | some .idle => none
    | none => none

/-- The byte `MS.EMIT` would push: byte `pos` of the owner's record; none where `MS.EMIT` is not
enabled, that is where the lock is free or `pos` has reached the record's end (R116). -/
def nextByte (s : State) : Option Byte :=
  match ownerRecord s with
  | none => none
  | some bytes => bytes[s.pos]?

/-- The owner whose record is pushed to its end, which `MS.RELEASE` needs (R117). -/
def finishedOwner (s : State) : Option Nat :=
  match s.lockOwner, ownerRecord s with
  | some p, some bytes => if s.pos = bytes.length then some p else none
  | _, _ => none

/-! ### Reset -/

/-- R160, the table of R29: every piece of state takes its reset value; the parameters stay, and so
does the feed, which is no state of the block. -/
def initialised (s : State) : State :=
  { s with
    head := 0
    tail := 0
    storage := []
    txActive := false
    lockOwner := none
    pos := 0
    req := List.replicate s.cfg.nprod .idle
    fOverlen := false
    wire := [] }

end Sys2Proof.Machine
end

