-- ==== Sys2Proof/Machine/Encoder.lean ====
section
/-! DEFINITION. The meanings of the header encoder operations (spec/42_header_encoder.md): pure
functions, whose result a step of their own shows in `answer` (log entry 13). -/

namespace Sys2Proof.Machine

open Sys2Proof

/-- `HE.TSMUX` (R91). -/
def execHeTsmux (ovr : Option Long) (time : TimeAnswer) (s : State) : Res :=
  afterInit s (.next (reply s (.micros (tsMux s.cfg ovr time))))

/-- `HE.ENCODE` (R94). -/
def execHeEncode (opcode : Half) (len : Nat) (ovr : Option Long) (time : TimeAnswer) (s : State) :
    Res :=
  afterInit s (.next (reply s (.header (encodeHeader s.cfg opcode len ovr time))))

end Sys2Proof.Machine
end

