-- ==== Sys2Proof/Machine/Ring.lean ====
section
/-! DEFINITION. The meanings of the transmit ring buffer operations (spec/41_ring_buffer.md). -/

namespace Sys2Proof.Machine

open Sys2Proof

/-- `RB.PUSH(b)` (R72), one attempt, made on behalf of the holder of the session lock; with the lock free
nobody holds it, and the push is refused (R83, 92_eei_decisions.md D32; log entry 11). -/
def execRbPush (b : Byte) (s : State) : Res :=
  afterInit s <|
    if isLocked s then
      match pushAttempt b s with
      | .done t => .next (reply t .done)
      | .hold t => .next (reply t .hold)
      | .noSlot => .fault .noSuchSlot
    else .refused .pushWithoutLock

/-- `RB.PULL()` (R73); total, also while the transmitter is idle (log entry 12). -/
def execRbPull (s : State) : Res :=
  afterInit s <|
    match pullOne s with
    | some (b, t) => .next (reply t (.pulled b))
    | none => .fault .noSuchSlot

/-- `RB.KICK()` (R75). -/
def execRbKick (s : State) : Res := afterInit s (.next (reply (kick s) .kicked))

end Sys2Proof.Machine
end

