-- ==== Sys2Proof/Machine/Session.lean ====
section
/-! DEFINITION. The meanings of the monitor session operations (spec/43_monitor_session.md) and of the
index registration (spec/44_index_registration.md). -/

namespace Sys2Proof.Machine

open Sys2Proof

/-- `MS.SEND` (R110): the acceptance of the request; the framer does the rest (log entry 15). -/
def execMsSend (p : Nat) (opcode : Half) (payload : List Byte) (time : TimeAnswer) (s : State) :
    Res :=
  afterInit s (acceptRequest p opcode payload time s)

/-- `MS.SEND_FRAG` (R111): exactly `MS.SEND` of the concatenated fragments. -/
def execMsSendFrag (p : Nat) (opcode : Half) (frags : List (List Byte)) (time : TimeAnswer)
    (s : State) : Res :=
  afterInit s (acceptRequest p opcode (fragsPayload frags) time s)

/-- `IX.REGISTER_INDEX` (R130): `MS.SEND` of an index record under `OPC_NEW_INDEX`; a name that holds
0x00 is refused (R131 corner case (e)). -/
def execIxRegisterIndex (p : Nat) (busId : Byte) (address : Vector Byte 6) (name : List Byte)
    (time : TimeAnswer) (s : State) : Res :=
  afterInit s <|
    if nulFree name then
      acceptRequest p s.cfg.opcNewIndex (indexPayload s.cfg busId address name) time s
    else .refused .nameHasNul

/-- `MS.ACQUIRE(p)` (R114): enabled iff the lock is free and port `p` has a pending request. -/
def execMsAcquire (p : Nat) (s : State) : Res :=
  afterInit s <|
    match s.req[p]? with
    | none => .refused .noSuchPort
    | some .idle => .next (reply s .notEnabled)
    | some (.pending _ _ _) =>
      match s.lockOwner with
      | some _ => .next (reply s .notEnabled)
      | none => .next (reply { s with lockOwner := some p, pos := 0 } (.granted p))

/-- `MS.EMIT` (R116): one push attempt of the next byte of the owner's record. -/
def execMsEmit (s : State) : Res :=
  afterInit s <|
    match nextByte s with
    | none => .next (reply s .notEnabled)
    | some b =>
      match pushAttempt b s with
      | .done t => .next (reply (advancePos t) .done)
      | .hold t => .next (reply t .hold)
      | .noSlot => .fault .noSuchSlot

/-- `MS.RELEASE` (R117): enabled iff the owner's record is pushed to its end; completes the owner's port
with `DONE(0)` (R56). -/
def execMsRelease (s : State) : Res :=
  afterInit s <|
    match finishedOwner s with
    | none => .next (reply s .notEnabled)
    | some p =>
      .next (reply { s with req := s.req.set p .idle, lockOwner := none } (.completed p 0))

end Sys2Proof.Machine
end

