-- ==== Sys2Proof/Machine/System.lean ====
section
/-! DEFINITION. `INIT` (spec/70_reset_and_hazards.md) and the rows of the operation table to which the
spec gives no effect: the reserved OPSELs (R59) and the two wire patterns (R50, R53). -/

namespace Sys2Proof.Machine

open Sys2Proof

/-- `INIT` (R160): admitted only as the first step of a run (R161). -/
def execInit (s : State) : Res :=
  match s.phase with
  | .running => .refused .initNotFirst
  | .beforeInit => .next (reply (initialised s) .initDone)
  | .justReset => .next (reply (initialised s) .initDone)

/-- OPSEL 0xC to 0xF (R59): refused. -/
def execReserved (low : BitVec 2) (_s : State) : Res := .refused (.reservedOpsel low)

/-- MONITOR_HEADER (R50): a format of the wire, no operation of R58 (log entry 14). -/
def execMonitorHeader (_dataLen _opcode : Half) (_extType : Byte) (_ts32 : Word) (_s : State) : Res :=
  .refused .headerIsNoOperation

/-- INDEX_RECORD (R53): a format of the wire, no operation of R58 (log entry 14). -/
def execIndexRecord (_bus : Byte) (_address : Vector Byte 6) (_name : Vector Byte 7) (_s : State) :
    Res :=
  .refused .recordIsNoOperation

end Sys2Proof.Machine
end

