-- ==== Sys2Proof/Machine/Dispatch.lean ====
section
/-! DEFINITION. One arm per operation of spec/opcode_table.json. -/

namespace Sys2Proof.Machine

open Sys2Proof

def exec (i : Instr) (s : State) : Host.Outcome State Fault Refusal :=
  match i with
  | .init => Sys2Proof.Machine.execInit s
  | .rbPush b => Sys2Proof.Machine.execRbPush b s
  | .rbPull => Sys2Proof.Machine.execRbPull s
  | .rbKick => Sys2Proof.Machine.execRbKick s
  | .heTsmux ovr time => Sys2Proof.Machine.execHeTsmux ovr time s
  | .heEncode opcode len ovr time => Sys2Proof.Machine.execHeEncode opcode len ovr time s
  | .msAcquire p => Sys2Proof.Machine.execMsAcquire p s
  | .msRelease => Sys2Proof.Machine.execMsRelease s
  | .msSend p opcode payload time => Sys2Proof.Machine.execMsSend p opcode payload time s
  | .msSendFrag p opcode frags time => Sys2Proof.Machine.execMsSendFrag p opcode frags time s
  | .ixRegisterIndex p busId address name time => Sys2Proof.Machine.execIxRegisterIndex p busId address name time s
  | .msEmit => Sys2Proof.Machine.execMsEmit s
  | .reserved low => Sys2Proof.Machine.execReserved low s
  | .monitorHeader dataLen opcode extType ts32 => Sys2Proof.Machine.execMonitorHeader dataLen opcode extType ts32 s
  | .indexRecord bus address name => Sys2Proof.Machine.execIndexRecord bus address name s

end Sys2Proof.Machine
end

