-- ==== Sys2Proof/Machine/Step.lean ====
section
/-! DEFINITION. One step of the machine: the next step label of the feed is decoded and executed. The
block has no program counter and fetches no instruction (R22, R43): the feed is the interleaving in
which the agents of R6 take their steps (log entry 2). -/

namespace Sys2Proof.Machine

open Sys2Proof

/-- One step. With an empty feed no agent acts, and the block does nothing until a request or a pull
arrives (R160). Else the label at the head of the feed is decoded, taken off the feed, and executed. -/
def step (s : State) : Host.Outcome State Fault Refusal :=
  match s.feed with
  | [] => .next s
  | b :: bs =>
    match decode (b :: bs) with
    | .ok (i, rest) => exec i { s with feed := rest }
    | .error e => .refused (.undecodable e)

/-- `s` with the instruction of a table word put at the head of the feed, so that the next step runs
exactly it: the bytes that the decoder takes, without the zeros that stand for operand words. -/
def State.withFetchWord (s : State) (nbits w : Nat) : State :=
  let bytes := tableBytes nbits w
  match decode bytes with
  | .ok (_, rest) => { s with feed := bytes.take (bytes.length - rest.length) ++ s.feed }
  | .error _ => { s with feed := bytes ++ s.feed }

end Sys2Proof.Machine
end

