-- ==== Sys2Proof/Safety.lean ====
section
/-! DEFINITION. What counts as a legal state (`StateInv`), the roles and agents of R6 and R150, the contract of
the transmitter (R144), quiescence (R164), runs of steps, and the byte sequences that the properties of
spec/41_ring_buffer.md and spec/43_monitor_session.md speak of. Nothing here is read by the machine. -/

namespace Sys2Proof.Machine

open Sys2Proof

/-! ### Legal states -/

/-- The invariant of the machine after `INIT`. Its clauses are the spec's: R4; R162; R11; the canonical
form of `storage` over the slots of R37; R78; R80; R17; R16 and R18; R17 with R50, R52, R92 and R141;
R37. -/
structure StateInv (s : State) : Prop where
  /-- The parameters are legal (R4, R5). -/
  params : s.cfg.wf = true
  /-- `INIT` has happened (R162). -/
  started : s.phase ≠ .beforeInit
  /-- `head` is a slot number (R11). -/
  headSlot : s.head.toNat < capOf s.cfg
  /-- `tail` is a slot number (R11). -/
  tailSlot : s.tail.toNat < capOf s.cfg
  /-- `storage` is in canonical form. -/
  storageForm : Memory.wf s.storage = true
  /-- Only slots `0..MASK` are listed (R37). -/
  storageSlots : ∀ c ∈ s.storage, c.1 < capOf s.cfg
  /-- Every queued slot has been pushed into since `INIT` (R78). -/
  queuedWritten : ∀ j < (countOf s).toNat,
    (Memory.find s.storage ((s.tail.toNat + j) % capOf s.cfg)).isSome = true
  /-- A queued byte never meets an idle transmitter (R80). -/
  drain : s.head ≠ s.tail → s.txActive = true
  /-- One request slot per producer port (R17). -/
  ports : s.req.length = s.cfg.nprod
  /-- The lock owner is a port with a pending request, and `pos` is at most the length of its record
  (R16, R18). -/
  owner : ∀ p : Nat, s.lockOwner = some p → ∃ hdr pay ovf,
    s.req[p]? = some (Req.pending hdr pay ovf) ∧ s.pos ≤ 12 + pay.length
  /-- A pending header declares its payload's length and carries the constant fields; `ovf` says whether
  the length fits, and an over-long request has set `F_OVERLEN` (R17, R50, R52, R92, R141). -/
  staged : ∀ (p : Nat) hdr pay ovf, s.req[p]? = some (Req.pending hdr pay ovf) →
    ovf = isOverLength pay.length ∧ (ovf = true → s.fOverlen = true) ∧
    ∃ opcode ts32, hdr = headerBytes s.cfg (dataLen pay.length) opcode ts32
  /-- Byte number `n` pulled since reset is read from slot `n & MASK`, so `tail` is the number of bytes
  pulled, modulo `CAP` (R37). -/
  tailAt : s.tail.toNat = s.wire.length % capOf s.cfg

/-! ### Roles, agents, contracts -/

/-- Who takes a step (R6, R150): the role is fixed by the port, so a label says it. -/
inductive Role where
  | host
  | producer (p : Nat)
  | framer
  | transmitter
  /-- An operation that only another operation's rule invokes (R58, "internal"). -/
  | insideAnother
  /-- No operation of the block (R59, R50, R53). -/
  | nobody
deriving DecidableEq, Repr

/-- The role of a step label (R6, R58, R150). -/
def roleOf : Instr → Role
  | .init => .host
  | .rbPush _ => .insideAnother
  | .rbPull => .transmitter
  | .rbKick => .insideAnother
  | .heTsmux _ _ => .insideAnother
  | .heEncode _ _ _ _ => .insideAnother
  | .msAcquire _ => .framer
  | .msRelease => .framer
  | .msSend p _ _ _ => .producer p
  | .msSendFrag p _ _ _ => .producer p
  | .ixRegisterIndex p _ _ _ _ => .producer p
  | .msEmit => .framer
  | .reserved _ => .nobody
  | .monitorHeader _ _ _ _ => .nobody
  | .indexRecord _ _ _ => .nobody

/-- The agents' steps after `INIT`: acceptance, `MS.ACQUIRE`, `MS.EMIT`, `MS.RELEASE`, `RB.PULL` (R6). -/
def isAgentStep (i : Instr) : Bool :=
  match roleOf i with
  | .host => false
  | .producer _ => true
  | .framer => true
  | .transmitter => true
  | .insideAnother => false
  | .nobody => false

/-- The transmitter's contract, part 1 (R144): it pulls only while `tx_active = 1`. -/
def pullAllowed (i : Instr) (s : State) : Prop := i = .rbPull → s.txActive = true

/-- Quiescence (R164). -/
def Quiescent (s : State) : Prop :=
  (∀ (p : Nat) r, s.req[p]? = some r → r = Req.idle) ∧ s.lockOwner = none ∧ isEmpty s = true
    ∧ s.txActive = false

/-! ### Byte sequences -/

/-- All bytes pushed since reset, in order: those on the wire, then those still queued (R77). -/
def emitted (s : State) : List Byte := s.wire ++ queued s

/-- The bytes of the lock owner's record that are still to be pushed (R116). -/
def remaining (s : State) : List Byte :=
  match ownerRecord s with
  | none => []
  | some bytes => bytes.drop s.pos

/-- The byte that a step pushes from `s`, if the buffer takes one (R72, R116). -/
def pushedBy (i : Instr) (s : State) : List Byte :=
  if isFull s then []
  else
    match i with
    | .rbPush b => [b]
    | .msEmit => (nextByte s).toList
    | .init | .rbPull | .rbKick | .heTsmux _ _ | .heEncode _ _ _ _ | .msAcquire _ | .msRelease
    | .msSend _ _ _ _ | .msSendFrag _ _ _ _ | .ixRegisterIndex _ _ _ _ _ | .reserved _
    | .monitorHeader _ _ _ _ | .indexRecord _ _ _ => []

/-- The record to whose producer a step grants the lock from `s`, if it grants it (R114). -/
def grantedBy (i : Instr) (s : State) : List (List Byte) :=
  match i with
  | .msAcquire p =>
    match s.lockOwner, s.req[p]? with
    | none, some (.pending hdr pay _) => [recordOf hdr pay]
    | _, _ => []
  | .init | .rbPush _ | .rbPull | .rbKick | .heTsmux _ _ | .heEncode _ _ _ _ | .msRelease
  | .msSend _ _ _ _ | .msSendFrag _ _ _ _ | .ixRegisterIndex _ _ _ _ _ | .msEmit | .reserved _
  | .monitorHeader _ _ _ _ | .indexRecord _ _ _ => []

/-! ### Runs -/

/-- The steps `is` one after another, stopping at the first fault or refusal (R39). -/
def runSteps : List Instr → State → Res
  | [], s => .next s
  | i :: is, s =>
    match exec i s with
    | .next t => runSteps is t
    | .fault f => .fault f
    | .refused r => .refused r

/-- The records granted along a run, in the order of the grants (R119, R120). -/
def grantsAlong : List Instr → State → List (List Byte)
  | [], _ => []
  | i :: is, s =>
    match exec i s with
    | .next t => grantedBy i s ++ grantsAlong is t
    | .fault _ => []
    | .refused _ => []

/-- The bytes pushed along a run, in order (R77). -/
def pushesAlong : List Instr → State → List Byte
  | [], _ => []
  | i :: is, s =>
    match exec i s with
    | .next t => pushedBy i s ++ pushesAlong is t
    | .fault _ => []
    | .refused _ => []

/-- The transmitter keeps R144 all along a run. -/
def pullsAllowed : List Instr → State → Prop
  | [], _ => True
  | i :: is, s =>
    pullAllowed i s ∧
    match exec i s with
    | .next t => pullsAllowed is t
    | .fault _ => True
    | .refused _ => True

end Sys2Proof.Machine
end

