-- ==== Sys2Proof/Certificates/Slice0/Obligations.lean ====
section
/-! DEFINITION. The statements about the model, for the provers. Each docstring names the rule of spec/
that the statement formalises. No statement rests on the value of an unspecified byte of `storage` (log
entry 8), and the fields `phase`, `answer` and `feed` are the model's own (log entries 2, 3, 5). -/

open Sys2Proof Sys2Proof.Machine

/-! ### Decoding, encoding, fetching -/

/-- R58's numbering of the operations, read by the decoder from the words of the operation table; an
OPSEL of R59's reserved space decodes to the reserved operation. -/
def Obligations.OperationTableLabels : Prop :=
  decodeTableWord 8 0x0 = some .init ∧
  decodeTableWord 8 0x1 = some (.rbPush 0) ∧
  decodeTableWord 8 0x2 = some .rbPull ∧
  decodeTableWord 8 0x3 = some .rbKick ∧
  decodeTableWord 8 0x4 = some (.heTsmux none ⟨false, 0, 0, 0⟩) ∧
  decodeTableWord 8 0x5 = some (.heEncode 0 0 none ⟨false, 0, 0, 0⟩) ∧
  decodeTableWord 8 0x6 = some (.msAcquire 0) ∧
  decodeTableWord 8 0x7 = some .msRelease ∧
  decodeTableWord 8 0x8 = some (.msSend 0 0 [] ⟨false, 0, 0, 0⟩) ∧
  decodeTableWord 8 0x9 = some (.msSendFrag 0 0 [] ⟨false, 0, 0, 0⟩) ∧
  decodeTableWord 8 0xA = some (.ixRegisterIndex 0 0 #v[0, 0, 0, 0, 0, 0] [] ⟨false, 0, 0, 0⟩) ∧
  decodeTableWord 8 0xB = some .msEmit ∧
  decodeTableWord 8 0xC = some (.reserved 0) ∧
  decodeTableWord 8 0xD = some (.reserved 1) ∧
  decodeTableWord 8 0xE = some (.reserved 2) ∧
  decodeTableWord 8 0xF = some (.reserved 3)

/-- Decode and encode agree on every instruction whose operands fit their fields, whatever follows it
in the stream (log entry 1: the operand bytes are the model's own). -/
def Obligations.DecodeOfEncodeIsTheInstruction : Prop :=
  ∀ (i : Instr) (rest : List Byte), i.fits = true → decode (encode i ++ rest) = .ok (i, rest)

/-- The other direction: what the decoder reads is the encoding of the instruction it answers, and the
operands of that instruction fit their fields. So every stream has one reading and no bit is ignored. -/
def Obligations.EncodeOfDecodeIsTheStream : Prop :=
  ∀ (bs : List Byte) (i : Instr) (rest : List Byte), decode bs = .ok (i, rest) →
    encode i ++ rest = bs ∧ i.fits = true

/-- A label byte that is no OPSEL and no wire pattern's label is rejected by name, and so is an empty
stream (log entry 1). -/
def Obligations.UnknownLabelsAreRejected : Prop :=
  decode [] = .error .truncated ∧
  ∀ (b : Byte) (bs : List Byte), 0x11 < b.toNat → decode (b :: bs) = .error (.unknownLabel b)

/-- A step runs the decoded instruction, with its bytes taken off the feed; with an empty feed nothing
happens (R160); a feed that is no label is refused by name (log entry 2). -/
def Obligations.StepRunsTheDecodedInstruction : Prop :=
  (∀ (s : State) (i : Instr) (rest : List Byte), decode s.feed = .ok (i, rest) →
    step s = exec i { s with feed := rest }) ∧
  (∀ s : State, s.feed = [] → step s = .next s) ∧
  (∀ (s : State) (e : DecodeError), s.feed ≠ [] → decode s.feed = .error e →
    step s = .refused (.undecodable e))

/-- A word of the operation table that is put where the machine fetches is run as exactly its
instruction, and the rest of the feed is left for later steps. -/
def Obligations.FetchedTableWordRuns : Prop :=
  ∀ (s : State) (nbits w : Nat) (i : Instr), decodeTableWord nbits w = some i →
    step (s.withFetchWord nbits w) = exec i s

/-! ### Reset and the life of the block -/

/-- The invariant holds right after reset, for every legal choice of the parameters. -/
def Obligations.ResetMeetsTheInvariant : Prop :=
  (∀ c : Params, c.wf = true → StateInv (State.resetOf c)) ∧ StateInv State.reset

/-- R160, R29: what `INIT` leaves, from every state in which it is admitted: before any `INIT`, and as
the first step after reset (log entry 3). -/
def Obligations.InitResetsTheBlock : Prop :=
  ∀ s : State, s.cfg.wf = true → s.phase ≠ .running →
    ∃ t, exec .init s = .next t ∧
      t.head = 0 ∧ t.tail = 0 ∧ (∀ a, Memory.find t.storage a = none) ∧ t.txActive = false ∧
      t.lockOwner = none ∧ t.pos = 0 ∧ t.req.length = s.cfg.nprod ∧
      (∀ p < s.cfg.nprod, t.req[p]? = some Req.idle) ∧ t.fOverlen = false ∧ t.wire = [] ∧
      isEmpty t = true ∧ isFull t = false ∧ isLocked t = false ∧ statView t = 0x00000001 ∧
      t.cfg = s.cfg ∧ t.feed = s.feed ∧ t.answer = .initDone ∧ t.phase = .running

/-- R162: before `INIT` every other operation is refused. -/
def Obligations.NothingRunsBeforeInit : Prop :=
  ∀ (i : Instr) (s : State), s.phase = .beforeInit → i ≠ .init → ∃ r, exec i s = .refused r

/-- R161: once a step has been taken, `INIT` is refused. -/
def Obligations.SecondInitIsRefused : Prop :=
  ∀ s : State, s.phase = .running → exec .init s = .refused .initNotFirst

/-- R59: OPSEL 0xC to 0xF are refused in every state. -/
def Obligations.ReservedOpselIsRefused : Prop :=
  ∀ (low : BitVec 2) (s : State), exec (.reserved low) s = .refused (.reservedOpsel low)

/-- The two wire patterns of the operation table are data on the wire, not operations of R58: the model
refuses a step labelled with one (log entry 14, the model's choice). -/
def Obligations.WirePatternsAreNoOperations : Prop :=
  (∀ (dataLen opcode : Half) (extType : Byte) (ts32 : Word) (s : State),
    exec (.monitorHeader dataLen opcode extType ts32) s = .refused .headerIsNoOperation) ∧
  (∀ (bus : Byte) (address : Vector Byte 6) (name : Vector Byte 7) (s : State),
    exec (.indexRecord bus address name) s = .refused .recordIsNoOperation)

/-! ### Invariants of every step -/

/-- Every step keeps the invariant, from every state that meets it. -/
def Obligations.StepKeepsTheInvariant : Prop :=
  ∀ s t : State, StateInv s → step s = .next t → StateInv t

/-- R140: no operation faults from a state that meets the invariant. -/
def Obligations.NoFaultFromLegalStates : Prop :=
  ∀ (i : Instr) (s : State) (f : Fault), StateInv s → exec i s ≠ .fault f

/-- R80, drain liveness: no step leaves a queued byte with an idle transmitter. -/
def Obligations.QueuedBytesKeepTheTransmitterActive : Prop :=
  ∀ (i : Instr) (s t : State), (s.head ≠ s.tail → s.txActive = true) → exec i s = .next t →
    (t.head ≠ t.tail → t.txActive = true)

/-- R27, R15 to R19, R22, R150 and the table of 10_state.md section 7: which step writes which state; the
parameters are never written (R4). What `INIT` writes is `InitResetsTheBlock`. That `exec` leaves `feed`
alone concerns a field of the model's own (log entry 2). -/
def Obligations.OnlyTheOwnerWritesAField : Prop :=
  ∀ (i : Instr) (s t : State), exec i s = .next t →
    t.cfg = s.cfg ∧ t.feed = s.feed ∧
    (i ≠ .init →
      (t.head ≠ s.head ∨ t.storage ≠ s.storage → (∃ b, i = .rbPush b) ∨ i = .msEmit) ∧
      (t.tail ≠ s.tail ∨ t.wire ≠ s.wire → i = .rbPull) ∧
      (s.txActive = false → t.txActive = true →
        (∃ b, i = .rbPush b) ∨ i = .rbKick ∨ i = .msEmit) ∧
      (s.txActive = true → t.txActive = false → i = .rbPull ∧ isEmpty s = true) ∧
      (t.lockOwner ≠ s.lockOwner → (∃ p, i = .msAcquire p) ∨ i = .msRelease) ∧
      (t.pos ≠ s.pos → (∃ p, i = .msAcquire p) ∨ i = .msEmit) ∧
      (t.req ≠ s.req → (∃ p, roleOf i = .producer p) ∨ i = .msRelease) ∧
      (t.fOverlen ≠ s.fOverlen → ∃ p, roleOf i = .producer p))

/-! ### The ring buffer -/

/-- R70: `inc_wrap` as a formula and as arithmetic modulo `CAP`, and no other arithmetic is ever applied
to `head` and `tail`. -/
def Obligations.IndexAdvancesByOneModuloCap : Prop :=
  (∀ (c : Params) (i : Half), c.wf = true →
    incWrap c i = ((i + 1) &&& maskOf c) ∧ (incWrap c i).toNat = (i.toNat + 1) % 2 ^ c.k ∧
    (incWrap c (maskOf c)) = 0 ∧ (i.toNat < (maskOf c).toNat → (incWrap c i).toNat = i.toNat + 1)) ∧
  (∀ (i : Instr) (s t : State), i ≠ .init → exec i s = .next t →
    (t.head = s.head ∨ t.head = incWrap s.cfg s.head) ∧
    (t.tail = s.tail ∨ t.tail = incWrap s.cfg s.tail))

/-- R12, R13, R14: EMPTY is `COUNT = 0`, FULL is `COUNT = CAP - 1`, never both, and COUNT is the number
of queued bytes. -/
def Obligations.CountDecidesEmptyAndFull : Prop :=
  ∀ s : State, s.cfg.wf = true → s.head.toNat < capOf s.cfg → s.tail.toNat < capOf s.cfg →
    (isEmpty s = true ↔ (countOf s).toNat = 0) ∧
    (isFull s = true ↔ (countOf s).toNat = 2 ^ s.cfg.k - 1) ∧
    (countOf s).toNat < 2 ^ s.cfg.k ∧
    ¬ (isEmpty s = true ∧ isFull s = true) ∧
    (queued s).length = (countOf s).toNat

/-- R72, the push attempt with its frame, made by the holder of the session lock (R83; without a holder it
is refused, `PushWithoutTheLockIsRefused`). On a full buffer: kick, HOLD, nothing else. Else: the byte in
slot `head`, `head` advanced, kick, DONE; every other slot reads as before. -/
def Obligations.PushStoresOrHolds : Prop :=
  ∀ (b : Byte) (s : State), s.phase ≠ .beforeInit → isLocked s = true →
    (isFull s = true → exec (.rbPush b) s
      = .next { s with txActive := true, answer := .hold, phase := .running }) ∧
    (isFull s = false → s.head.toNat < capOf s.cfg → ∃ t, exec (.rbPush b) s = .next t ∧
      t = { s with
        storage := t.storage, head := incWrap s.cfg s.head, txActive := true,
        answer := .done, phase := .running } ∧
      Memory.get t.storage s.head.toNat = b ∧
      (∀ a, a ≠ s.head.toNat → Memory.get t.storage a = Memory.get s.storage a) ∧
      (Memory.wf s.storage = true → Memory.wf t.storage = true))

/-- THE MODEL'S CHOICE (log entry 9): an index register that holds no slot number (R11 lets no run reach
such a state) stops each operation that would access `storage` through it, `RB.PUSH`, `MS.EMIT` and
`RB.PULL`, with the fault `noSuchSlot`. R37 says only that the address does not exist. -/
def Obligations.AccessOutsideTheSlotsFaults : Prop :=
  (∀ (b : Byte) (s : State), s.phase ≠ .beforeInit → isLocked s = true → isFull s = false →
    2 ^ s.cfg.k ≤ s.head.toNat → exec (.rbPush b) s = .fault .noSuchSlot) ∧
  (∀ (s : State) (p : Nat) (hdr : Vector Byte 12) (pay : List Byte) (ovf : Bool),
    s.phase ≠ .beforeInit → s.lockOwner = some p → s.req[p]? = some (Req.pending hdr pay ovf) →
    s.pos < 12 + pay.length → isFull s = false → 2 ^ s.cfg.k ≤ s.head.toNat →
    exec .msEmit s = .fault .noSuchSlot) ∧
  (∀ s : State, s.phase ≠ .beforeInit → isEmpty s = false → 2 ^ s.cfg.k ≤ s.tail.toNat →
    exec .rbPull s = .fault .noSuchSlot)

/-- R72, R82: nothing but a pull makes a full buffer not full. -/
def Obligations.OnlyAPullLiftsAHold : Prop :=
  ∀ (i : Instr) (s t : State), i ≠ .init → exec i s = .next t → isFull s = true →
    isFull t = false → i = .rbPull

/-- R73, R74: the pull with its frame. On an empty buffer: `None`, the transmitter idle, nothing else.
Else: the byte of slot `tail`, `tail` advanced, the byte appended to `wire`; no slot is written. -/
def Obligations.PullTakesTheOldestOrStops : Prop :=
  ∀ s : State, s.phase ≠ .beforeInit →
    (isEmpty s = true → exec .rbPull s
      = .next { s with txActive := false, answer := .pulled none, phase := .running }) ∧
    (isEmpty s = false → s.tail.toNat < capOf s.cfg → exec .rbPull s = .next
      { s with
        tail := incWrap s.cfg s.tail, wire := s.wire ++ [Memory.get s.storage s.tail.toNat],
        answer := .pulled (some (Memory.get s.storage s.tail.toNat)), phase := .running })

/-- R81: HOLD iff `COUNT = CAP - 1`, `None` iff `COUNT = 0`; the attempt is the lock holder's (R83). -/
def Obligations.FullAndEmptyAreReportedExactly : Prop :=
  ∀ s : State, StateInv s →
    (∀ b, isLocked s = true → ∃ t, exec (.rbPush b) s = .next t ∧
      (t.answer = .hold ↔ (countOf s).toNat = 2 ^ s.cfg.k - 1)) ∧
    (∃ t, exec .rbPull s = .next t ∧ (t.answer = .pulled none ↔ (countOf s).toNat = 0))

/-- R75, R147: a kick sets `tx_active` and changes nothing else; a second one changes nothing at all; after
a kick on an empty buffer the next pull answers `None` and clears `tx_active`. (`answer` and `phase` are
the model's own.) -/
def Obligations.KickIsIdempotent : Prop :=
  ∀ s : State, s.phase ≠ .beforeInit → ∃ t, exec .rbKick s = .next t ∧
    t = { s with txActive := true, answer := .kicked, phase := .running } ∧
    exec .rbKick t = .next t ∧
    (isEmpty s = true → ∃ u, exec .rbPull t = .next u ∧ u.answer = .pulled none ∧
      u.txActive = false ∧ u.head = s.head ∧ u.tail = s.tail ∧ u.wire = s.wire)

/-- R77, one step: the bytes pushed since reset grow by exactly the byte the step pushes, and the wire
only grows. -/
def Obligations.StepKeepsFifoOrder : Prop :=
  ∀ (i : Instr) (s t : State), StateInv s → i ≠ .init → exec i s = .next t →
    emitted t = emitted s ++ pushedBy i s ∧ ∃ more, t.wire = s.wire ++ more

/-- R77: along every run from reset, `wire` is a prefix of the bytes pushed, and equal to them exactly
when the buffer is empty. -/
def Obligations.WireIsAPrefixOfThePushes : Prop :=
  ∀ (c : Params) (is : List Instr) (t : State), c.wf = true → (∀ i ∈ is, i ≠ .init) →
    runSteps is (State.resetOf c) = .next t →
    (∃ more, t.wire ++ more = pushesAlong is (State.resetOf c)) ∧
    (t.wire = pushesAlong is (State.resetOf c) ↔ isEmpty t = true)

/-- R78: a pull returns only a byte that was pushed: the slot it reads is listed, so its byte is no
unspecified one. -/
def Obligations.PullReturnsOnlyPushedBytes : Prop :=
  ∀ (s t : State) (b : Byte), StateInv s → exec .rbPull s = .next t → t.answer = .pulled (some b) →
    Memory.find s.storage s.tail.toNat = some b

/-- R37, step by step: byte number `n` pushed since reset is stored in slot `n mod CAP`, by a push and by an
EMIT alike, and no other slot is touched; byte number `n` pulled since reset is read from slot
`n mod CAP`, and no slot is written. `emitted s` are the bytes pushed before the step, `s.wire` the bytes
pulled before it. -/
def Obligations.BytesGoToTheirSlots : Prop :=
  ∀ s t : State, StateInv s →
    (∀ b, exec (.rbPush b) s = .next t → t.answer = .done →
      Memory.find t.storage ((emitted s).length % 2 ^ s.cfg.k) = some b ∧
      (∀ a, a ≠ (emitted s).length % 2 ^ s.cfg.k →
        Memory.get t.storage a = Memory.get s.storage a) ∧
      (emitted t).length = (emitted s).length + 1) ∧
    (exec .msEmit s = .next t → t.answer = .done → ∃ b, nextByte s = some b ∧
      Memory.find t.storage ((emitted s).length % 2 ^ s.cfg.k) = some b ∧
      (∀ a, a ≠ (emitted s).length % 2 ^ s.cfg.k →
        Memory.get t.storage a = Memory.get s.storage a) ∧
      (emitted t).length = (emitted s).length + 1) ∧
    (∀ b, exec .rbPull s = .next t → t.answer = .pulled (some b) →
      b = Memory.get s.storage (s.wire.length % 2 ^ s.cfg.k) ∧ t.storage = s.storage ∧
      t.wire.length = s.wire.length + 1)

/-- R82: after an EMIT that holds, the transmitter is active, one pull returns a byte, and the same byte
of the record then goes in. -/
def Obligations.OnePullLetsAHeldPushIn : Prop :=
  ∀ s t : State, StateInv s → exec .msEmit s = .next t → t.answer = .hold →
    t.txActive = true ∧ ∃ u b v, exec .rbPull t = .next u ∧ u.answer = .pulled (some b) ∧
      nextByte u = nextByte s ∧ exec .msEmit u = .next v ∧ v.answer = .done ∧ v.pos = s.pos + 1

/-! ### The header encoder -/

/-- R91: the timestamp multiplexer, and that it reads and writes no state but the model's answer. -/
def Obligations.TimestampMultiplexer : Prop :=
  ∀ (ovr : Option Long) (time : TimeAnswer) (s : State), s.phase ≠ .beforeInit →
    ∃ v : Long, exec (.heTsmux ovr time) s
        = .next { s with answer := .micros v, phase := .running } ∧
      (∀ t0, ovr = some t0 → v = t0) ∧
      (ovr = none → time.wallOk = true → s.cfg.tsFloorSec.toNat ≤ time.wallSec.toNat →
        v.toNat = (time.wallSec.toNat * 1000000 + time.wallUsec.toNat) % 2 ^ 64) ∧
      (ovr = none → (time.wallOk = false ∨ time.wallSec.toNat < s.cfg.tsFloorSec.toNat) →
        v = time.monoUsec)

/-- R50, R92, R93, R94: the twelve bytes of the header, and that the encoder reads and writes no state
but the model's answer. -/
def Obligations.HeaderEncoder : Prop :=
  ∀ (opcode : Half) (len : Nat) (ovr : Option Long) (time : TimeAnswer) (s : State),
    s.phase ≠ .beforeInit → ∃ (h : Vector Byte 12) (d : Half) (ts : Word),
      exec (.heEncode opcode len ovr time) s
        = .next { s with answer := .header h, phase := .running } ∧
      d.toNat = (4 + 5 + len) % 2 ^ 16 ∧
      ts.toNat = ((tsMux s.cfg ovr time).toNat / 100) % 2 ^ 32 ∧
      h.toList = [d.extractLsb' 0 8, d.extractLsb' 8 8, 0x05,
        opcode.extractLsb' 0 8, opcode.extractLsb' 8 8, 0x00, 0x00, s.cfg.extType,
        ts.extractLsb' 0 8, ts.extractLsb' 8 8, ts.extractLsb' 16 8, ts.extractLsb' 24 8]

/-- R92: `hdr_len` is 5; `data_len` is stored as `(9 + L) mod 2^16`, which is `4 + 5 + L` exactly iff
`L <= 65526`; an encoded header carries both, whatever its opcode and its timestamp. -/
def Obligations.DataLengthIsExactWithinTheBudget : Prop :=
  ∀ (c : Params) (opcode : Half) (len : Nat) (ovr : Option Long) (time : TimeAnswer),
    hdrLen = 5 ∧ (dataLen len).toNat = (9 + len) % 2 ^ 16 ∧
    ((dataLen len).toNat = 4 + 5 + len ↔ len ≤ 65526) ∧
    (encodeHeader c opcode len ovr time)[0].toNat
      + 256 * (encodeHeader c opcode len ovr time)[1].toNat = (dataLen len).toNat ∧
    (encodeHeader c opcode len ovr time)[2] = hdrLen

/-- R50: the header that the encoder builds has the operation table's MONITOR_HEADER pattern, with its
fields where the pattern puts them. -/
def Obligations.EncodedHeaderHasTheWirePattern : Prop :=
  ∀ (c : Params) (opcode : Half) (len : Nat) (ovr : Option Long) (time : TimeAnswer)
    (rest : List Byte),
    decode (0x10 :: ((encodeHeader c opcode len ovr time).toList ++ rest))
      = .ok (.monitorHeader (dataLen len) opcode c.extType (tickOf (tsMux c ovr time)), rest)

/-- R53: with NAME_W = 8 the payload of an index record has the operation table's INDEX_RECORD pattern. -/
def Obligations.IndexPayloadHasTheWirePattern : Prop :=
  ∀ (c : Params) (busId : Byte) (address : Vector Byte 6) (name rest : List Byte), c.nameW = 8 →
    ∃ n : Vector Byte 7, n.toList ++ [0x00] = nameField 8 name ∧
      decode (0x11 :: (indexPayload c busId address name ++ rest))
        = .ok (.indexRecord busId address n, rest)

/-! ### The monitor session -/

/-- R112 for `MS.SEND` (R110): acceptance on an idle port stages header, payload and `ovf`, sets
`F_OVERLEN` for an over-long payload (R141), and changes nothing else; on a busy port nothing changes. -/
def Obligations.SendIsAccepted : Prop :=
  ∀ (p : Nat) (opcode : Half) (payload : List Byte) (time : TimeAnswer) (s : State),
    s.phase ≠ .beforeInit →
    (s.req[p]? = some Req.idle → exec (.msSend p opcode payload time) s = .next
      { s with
        req := s.req.set p (.pending (encodeHeader s.cfg opcode payload.length none time) payload
          (decide (9 + payload.length > 65535))),
        fOverlen := s.fOverlen || decide (9 + payload.length > 65535),
        answer := .accepted p, phase := .running }) ∧
    (∀ hdr pay ovf, s.req[p]? = some (Req.pending hdr pay ovf) →
      exec (.msSend p opcode payload time) s
        = .next { s with answer := .notEnabled, phase := .running })

/-- R111: a fragmented send is accepted as the send of the concatenated fragments: the length is the sum
of the fragments' lengths, the fragment boundaries leave no trace. -/
def Obligations.FragmentedSendIsAccepted : Prop :=
  ∀ (p : Nat) (opcode : Half) (frags : List (List Byte)) (time : TimeAnswer) (s : State),
    exec (.msSendFrag p opcode frags time) s = exec (.msSend p opcode frags.flatten time) s ∧
    (s.phase ≠ .beforeInit → s.req[p]? = some Req.idle →
      exec (.msSendFrag p opcode frags time) s = .next
        { s with
          req := s.req.set p (.pending
            (encodeHeader s.cfg opcode (frags.map List.length).sum none time) frags.flatten
            (decide (9 + (frags.map List.length).sum > 65535))),
          fOverlen := s.fOverlen || decide (9 + (frags.map List.length).sum > 65535),
          answer := .accepted p, phase := .running })

/-- R130, R132: `IX.REGISTER_INDEX` is the send of `[0x00, bus] ++ address ++ namefield(name)`, 8 + NAME_W
bytes, under `OPC_NEW_INDEX`; a name that holds 0x00 is refused (R131 corner case (e)). -/
def Obligations.IndexRegistrationIsAccepted : Prop :=
  ∀ (p : Nat) (busId : Byte) (address : Vector Byte 6) (name : List Byte) (time : TimeAnswer)
    (s : State), s.phase ≠ .beforeInit →
    ((∀ b ∈ name, b ≠ 0x00) → 1 ≤ s.cfg.nameW → s.req[p]? = some Req.idle →
      exec (.ixRegisterIndex p busId address name time) s = .next
        { s with
          req := s.req.set p (.pending
            (encodeHeader s.cfg s.cfg.opcNewIndex (8 + s.cfg.nameW) none time)
            ([0x00, busId] ++ address.toList ++ nameField s.cfg.nameW name)
            (decide (9 + (8 + s.cfg.nameW) > 65535))),
          fOverlen := s.fOverlen || decide (9 + (8 + s.cfg.nameW) > 65535),
          answer := .accepted p, phase := .running }) ∧
    ((∀ b ∈ name, b ≠ 0x00) → ∀ hdr pay ovf, s.req[p]? = some (Req.pending hdr pay ovf) →
      exec (.ixRegisterIndex p busId address name time) s
        = .next { s with answer := .notEnabled, phase := .running }) ∧
    ((∃ b ∈ name, b = 0x00) →
      exec (.ixRegisterIndex p busId address name time) s = .refused .nameHasNul)

/-- R131: the name field is NAME_W bytes wide and ends in 0x00; a short name is followed by zeros only, a
name of NAME_W bytes or more keeps its first NAME_W - 1; bytes from NAME_W - 1 on are never used; a name
that contains 0x00 is refused. The zero fill, the treatment of a name of exactly NAME_W bytes and the
refusal are choices (92_eei_decisions.md D16, 93_implementation_defined.md U9; log entry 19: DESIGN
CHOICE, the fill unsafe). -/
def Obligations.NameFieldIsNullTerminated : Prop :=
  (∀ (p : Nat) (busId : Byte) (address : Vector Byte 6) (name : List Byte) (time : TimeAnswer)
    (s : State), s.phase ≠ .beforeInit → (0x00 : Byte) ∈ name →
    exec (.ixRegisterIndex p busId address name time) s = .refused .nameHasNul) ∧
  ∀ (w : Nat) (name : List Byte), 1 ≤ w →
    (nameField w name).length = w ∧
    (nameField w name)[w - 1]? = some 0x00 ∧
    (name.length < w → nameField w name = name ++ List.replicate (w - name.length) 0x00) ∧
    (w ≤ name.length → nameField w name = name.take (w - 1) ++ [0x00]) ∧
    (∀ other : List Byte, other.take (w - 1) = name.take (w - 1) →
      nameField w other = nameField w name)

/-- R56, R114: a request or a grant for a port that does not exist is refused. -/
def Obligations.MissingPortsAreRefused : Prop :=
  ∀ (p : Nat) (opcode : Half) (payload : List Byte) (frags : List (List Byte)) (busId : Byte)
    (address : Vector Byte 6) (name : List Byte) (time : TimeAnswer) (s : State),
    s.phase ≠ .beforeInit → s.req.length ≤ p → (∀ b ∈ name, b ≠ 0x00) →
    exec (.msSend p opcode payload time) s = .refused .noSuchPort ∧
    exec (.msSendFrag p opcode frags time) s = .refused .noSuchPort ∧
    exec (.ixRegisterIndex p busId address name time) s = .refused .noSuchPort ∧
    exec (.msAcquire p) s = .refused .noSuchPort

/-- R114: with the lock free, any waiting producer can be granted it, with `pos = 0` and nothing else
changed; with the lock held or the port idle nothing changes. -/
def Obligations.AcquireGrantsAFreeLock : Prop :=
  ∀ (p : Nat) (s : State), s.phase ≠ .beforeInit →
    (∀ hdr pay ovf, s.lockOwner = none → s.req[p]? = some (Req.pending hdr pay ovf) →
      exec (.msAcquire p) s = .next
        { s with lockOwner := some p, pos := 0, answer := .granted p, phase := .running }) ∧
    (p < s.req.length → (s.lockOwner ≠ none ∨ s.req[p]? = some Req.idle) →
      exec (.msAcquire p) s = .next { s with answer := .notEnabled, phase := .running })

/-- R116: the framer's per-byte step with its frame. Where it is enabled it makes one push attempt of byte
`pos` of the record: HOLD changes only `tx_active`; DONE stores the byte at `head` and adds one to `pos`.
Where the lock is free or the record is at its end nothing changes. -/
def Obligations.EmitPushesTheNextByte : Prop :=
  ∀ s : State, s.phase ≠ .beforeInit →
    (∀ p hdr pay ovf, s.lockOwner = some p → s.req[p]? = some (Req.pending hdr pay ovf) →
      s.pos < 12 + pay.length → ∃ b, (hdr.toList ++ pay)[s.pos]? = some b ∧
        (isFull s = true → exec .msEmit s
          = .next { s with txActive := true, answer := .hold, phase := .running }) ∧
        (isFull s = false → s.head.toNat < capOf s.cfg → ∃ t, exec .msEmit s = .next t ∧
          t = { s with
            storage := t.storage, head := incWrap s.cfg s.head, txActive := true,
            pos := s.pos + 1, answer := .done, phase := .running } ∧
          Memory.get t.storage s.head.toNat = b ∧
          (∀ a, a ≠ s.head.toNat → Memory.get t.storage a = Memory.get s.storage a))) ∧
    ((s.lockOwner = none ∨ ∃ p hdr pay ovf, s.lockOwner = some p ∧
        s.req[p]? = some (Req.pending hdr pay ovf) ∧ s.pos = 12 + pay.length) →
      exec .msEmit s = .next { s with answer := .notEnabled, phase := .running })

/-- R117: release. Where `pos = 12 + L` the owner's port goes idle, the lock is free, the port completes
with DONE(0), nothing else changes; else nothing changes. -/
def Obligations.ReleaseCompletesTheRequest : Prop :=
  ∀ s : State, s.phase ≠ .beforeInit →
    (∀ p hdr pay ovf, s.lockOwner = some p → s.req[p]? = some (Req.pending hdr pay ovf) →
      s.pos = 12 + pay.length → exec .msRelease s = .next
        { s with
          req := s.req.set p .idle, lockOwner := none, answer := .completed p 0,
          phase := .running }) ∧
    ((s.lockOwner = none ∨ ∃ p hdr pay ovf, s.lockOwner = some p ∧
        s.req[p]? = some (Req.pending hdr pay ovf) ∧ s.pos ≠ 12 + pay.length) →
      exec .msRelease s = .next { s with answer := .notEnabled, phase := .running })

/-- R118, R115, R22: the framer's control flow. From FREE only a grant to a port with a pending request
leaves, to `pos = 0`. While the lock is held it stays with its owner; an EMIT that answers DONE moves
`pos` by one within the record, nothing else moves `pos`, and only a release at the record's end frees the
lock. -/
def Obligations.FramerControlFlow : Prop :=
  ∀ (i : Instr) (s t : State), i ≠ .init → exec i s = .next t →
    (s.lockOwner = none → (t.lockOwner = none ∧ t.pos = s.pos) ∨
      ∃ p hdr pay ovf, i = .msAcquire p ∧ s.req[p]? = some (Req.pending hdr pay ovf) ∧
        t.lockOwner = some p ∧ t.pos = 0) ∧
    (∀ p, s.lockOwner = some p →
      (t.lockOwner = some p ∧ t.pos = s.pos ∧ ¬ (i = .msEmit ∧ t.answer = .done)) ∨
      (t.lockOwner = some p ∧ i = .msEmit ∧ t.answer = .done ∧ t.pos = s.pos + 1 ∧
        ∃ hdr pay ovf, s.req[p]? = some (Req.pending hdr pay ovf) ∧ s.pos < 12 + pay.length) ∨
      (t.lockOwner = none ∧ t.pos = s.pos ∧ i = .msRelease ∧ ∃ hdr pay ovf,
        s.req[p]? = some (Req.pending hdr pay ovf) ∧ s.pos = 12 + pay.length))

/-- R44, R17: a pending request keeps its header, payload and `ovf` until the release that completes it. -/
def Obligations.PendingRequestsAreStable : Prop :=
  ∀ (i : Instr) (s t : State) (p : Nat) (hdr : Vector Byte 12) (pay : List Byte) (ovf : Bool),
    i ≠ .init → exec i s = .next t → s.req[p]? = some (Req.pending hdr pay ovf) →
    t.req[p]? = some (Req.pending hdr pay ovf) ∨
    (i = .msRelease ∧ s.lockOwner = some p ∧ t.req[p]? = some Req.idle)

/-- R141, R19: `F_OVERLEN` is sticky; it is set only by the acceptance of an over-long request, and no
step reads it: whatever its value, the rest of the next state is the same. -/
def Obligations.OverLengthFlagIsStickyAndUnread : Prop :=
  ∀ (i : Instr) (s t : State), i ≠ .init → exec i s = .next t →
    (s.fOverlen = true → t.fOverlen = true) ∧
    (s.fOverlen = false → t.fOverlen = true → ∃ p hdr pay,
      roleOf i = .producer p ∧ s.req[p]? = some Req.idle ∧
      t.req[p]? = some (Req.pending hdr pay true) ∧ 65526 < pay.length) ∧
    (∀ v, ∃ w, exec i { s with fOverlen := v } = .next { t with fOverlen := w })

/-- R119, one step: what has been pushed together with what is still to be pushed of the owner's record
grows by exactly the record that the step grants, for every label but `INIT` and a push by itself. -/
def Obligations.StepKeepsRecordsWhole : Prop :=
  ∀ (i : Instr) (s t : State), StateInv s → i ≠ .init → (∀ b, i ≠ .rbPush b) → exec i s = .next t →
    emitted t ++ remaining t = emitted s ++ remaining s ++ (grantedBy i s).flatten

/-- R119, R120, R51: whole-record atomicity. Along every run of agents' steps from reset, for every legal
choice of parameters, `wire` is a prefix of the concatenation of whole records in the order of the grants,
each a header that declares its payload's length followed by that payload; in a quiescent state it is that
concatenation (R164). The run may hold over-long requests: their length field is the wrapped one, and R141
wants no claim read into the wire of such a run (log entry 10). -/
def Obligations.WireIsWholeRecordsInGrantOrder : Prop :=
  ∀ (c : Params) (is : List Instr) (t : State), c.wf = true → (∀ i ∈ is, isAgentStep i = true) →
    runSteps is (State.resetOf c) = .next t →
    (∃ more, t.wire ++ more = (grantsAlong is (State.resetOf c)).flatten) ∧
    (∀ r ∈ grantsAlong is (State.resetOf c), ∃ opcode ts32 pay,
      r = (headerBytes c (dataLen pay.length) opcode ts32).toList ++ pay) ∧
    (Quiescent t → t.wire = (grantsAlong is (State.resetOf c)).flatten)

/-- R164: in a quiescent state no agent's step that the transmitter's contract allows (R144) does anything
but accept a new request. -/
def Obligations.QuiescentStatesAreQuiet : Prop :=
  ∀ (i : Instr) (s t : State), Quiescent s → isAgentStep i = true → pullAllowed i s →
    exec i s = .next t →
    t = { s with answer := .notEnabled, phase := .running } ∨
    ∃ p, roleOf i = .producer p ∧ t.answer = .accepted p

/-- R122, R82: from every legal state in which the lock is held there is a run of EMITs, pulls that keep
R144 and releases, of at most `2 * (12 + L) + 1` steps, that completes the owner's request. R122 speaks of
fair infinite runs; the bounded form is the model's choice (log entry 16). -/
def Obligations.GrantedRequestsCanComplete : Prop :=
  ∀ (s : State) (p : Nat) (hdr : Vector Byte 12) (pay : List Byte) (ovf : Bool), StateInv s →
    s.lockOwner = some p → s.req[p]? = some (Req.pending hdr pay ovf) →
    ∃ (is : List Instr) (t : State), is.length ≤ 2 * (12 + pay.length) + 1 ∧
      (∀ i ∈ is, i = .msEmit ∨ i = .rbPull ∨ i = .msRelease) ∧ pullsAllowed is s ∧
      runSteps is s = .next t ∧ t.answer = .completed p 0 ∧ t.lockOwner = none ∧
      t.req[p]? = some Req.idle

/-- R148, R112: the acceptance of any of the three producer requests and a pull that are ready together give
the same state in either order, but for the model's own answer. -/
def Obligations.AcceptanceCommutesWithADrain : Prop :=
  ∀ (i : Instr) (p : Nat) (s u v : State), roleOf i = .producer p →
    exec i s = .next u → exec .rbPull u = .next v →
    ∃ u' v', exec .rbPull s = .next u' ∧ exec i u' = .next v' ∧ v' = { v with answer := v'.answer }

/-! ### The views -/

/-- R24's table: the fields of STAT, and the views HEAD and TAIL; STAT after reset. The views are the spec's
addition (92_eei_decisions.md D22; log entry 21). -/
def Obligations.ViewsShowTheState : Prop :=
  statView State.reset = 0x00000001 ∧ ∀ s : State,
    (statView s).getLsbD 0 = isEmpty s ∧
    (statView s).getLsbD 1 = isFull s ∧
    (statView s).getLsbD 2 = s.txActive ∧
    (statView s).getLsbD 3 = isLocked s ∧
    (statView s).getLsbD 4 = s.fOverlen ∧
    (statView s).extractLsb' 5 11 = 0 ∧
    (statView s).extractLsb' 16 16 = ownerField s ∧
    (s.lockOwner = none → ownerField s = 0) ∧
    (∀ p, s.lockOwner = some p → p < 65536 → (ownerField s).toNat = p) ∧
    headView s = s.head ∧ tailView s = s.tail

/-! ### The session lock and the ring buffer -/

/-- R83: while nobody holds the session lock a push by itself is refused, and no state changes. -/
def Obligations.PushWithoutTheLockIsRefused : Prop :=
  ∀ (b : Byte) (s : State), s.phase ≠ .beforeInit → s.lockOwner = none →
    exec (.rbPush b) s = .refused .pushWithoutLock
end

