-- ==== Sys2Proof/Laws/Decode.lean ====
section
/-! SUPPORT. The laws of the operand readers and writers of Decode.lean: reading back what was written, one
lemma per field, and the decoder unfolded once for each label. -/

namespace Sys2Proof

@[simp] theorem except_ok_bind {ε α β : Type} (a : α) (f : α → Except ε β) :
    (Except.ok a >>= f) = f a := rfl

@[simp] theorem except_error_bind {ε α β : Type} (e : ε) (f : α → Except ε β) :
    ((Except.error e : Except ε α) >>= f) = .error e := rfl

/-- A sequence of readers succeeds exactly where each of them does. -/
theorem except_bind_eq_ok {ε α β : Type} {x : Except ε α} {f : α → Except ε β} {b : β} :
    (x >>= f) = .ok b ↔ ∃ a, x = .ok a ∧ f a = .ok b := by
  cases x <;> simp

/-! ### Reading what was written -/

theorem readNat_writeNat (n v : Nat) (rest : List Byte) (h : v < 256 ^ n) :
    readNat n (writeNat n v ++ rest) = .ok (v, rest) := by
  induction n generalizing v with
  | zero => simp at h; simp [readNat, writeNat, h]
  | succ n ih =>
    have hv : v / 256 < 256 ^ n := by
      rw [Nat.div_lt_iff_lt_mul (by decide)]; rwa [pow_succ] at h
    simp only [writeNat, List.cons_append, readNat, ih _ hv, except_ok_bind]
    simp; omega

theorem readBytes_append (l rest : List Byte) :
    readBytes l.length (l ++ rest) = .ok (l, rest) := by
  induction l with
  | nil => rfl
  | cons a l ih => simp [readBytes, ih]

theorem readBit_writeBit (b : Bool) (rest : List Byte) :
    readBit (writeBit b ++ rest) = .ok (b, rest) := by
  cases b <;> rfl

theorem readHalf_writeHalf (v : Half) (rest : List Byte) :
    readHalf (writeHalf v ++ rest) = .ok (v, rest) := by
  simp [readHalf, writeHalf, readNat_writeNat 2 v.toNat rest v.isLt]

theorem readWord_writeWord (v : Word) (rest : List Byte) :
    readWord (writeWord v ++ rest) = .ok (v, rest) := by
  simp [readWord, writeWord, readNat_writeNat 4 v.toNat rest v.isLt]

theorem readLong_writeLong (v : Long) (rest : List Byte) :
    readLong (writeLong v ++ rest) = .ok (v, rest) := by
  simp [readLong, writeLong, readNat_writeNat 8 v.toNat rest v.isLt]

theorem readTime_writeTime (t : TimeAnswer) (rest : List Byte) :
    readTime (writeTime t ++ rest) = .ok (t, rest) := by
  simp [readTime, writeTime, List.append_assoc, readBit_writeBit, readLong_writeLong,
    readWord_writeWord]

theorem readOvr_writeOvr (o : Option Long) (rest : List Byte) :
    readOvr (writeOvr o ++ rest) = .ok (o, rest) := by
  cases o <;> simp [readOvr, writeOvr, List.append_assoc, readBit_writeBit, readLong_writeLong]

theorem readList_writeList (l rest : List Byte) (h : lenFits l.length = true) :
    readList (writeList l ++ rest) = .ok (l, rest) := by
  simp [lenFits] at h
  simp [readList, writeList, List.append_assoc, readNat_writeNat 4 _ _ (by omega),
    readBytes_append]

theorem readLists_writeLists (l : List (List Byte)) (rest : List Byte)
    (h : l.all (fun f => lenFits f.length) = true) :
    readLists l.length (writeLists l ++ rest) = .ok (l, rest) := by
  induction l with
  | nil => rfl
  | cons a l ih =>
    simp only [List.all_cons, Bool.and_eq_true] at h
    simp [readLists, writeLists, List.append_assoc, readList_writeList a _ h.1, ih h.2]

theorem readFrags_writeFrags (l : List (List Byte)) (rest : List Byte)
    (hl : lenFits l.length = true) (h : l.all (fun f => lenFits f.length) = true) :
    readFrags (writeFrags l ++ rest) = .ok (l, rest) := by
  simp [lenFits] at hl
  simp [readFrags, writeFrags, List.append_assoc, readNat_writeNat 4 _ _ (by omega),
    readLists_writeLists _ _ h]

/-- A vector of six is its six entries. -/
theorem vector_six (v : Vector Byte 6) : ∃ a b c d e f, v = #v[a, b, c, d, e, f] := by
  obtain ⟨⟨l⟩, h⟩ := v
  simp at h
  match l, h with
  | [a, b, c, d, e, f], _ => exact ⟨a, b, c, d, e, f, rfl⟩

/-- A vector of seven is its seven entries. -/
theorem vector_seven (v : Vector Byte 7) : ∃ a b c d e f g, v = #v[a, b, c, d, e, f, g] := by
  obtain ⟨⟨l⟩, h⟩ := v
  simp at h
  match l, h with
  | [a, b, c, d, e, f, g], _ => exact ⟨a, b, c, d, e, f, g, rfl⟩

theorem readSix_toList (v : Vector Byte 6) (rest : List Byte) :
    readSix (v.toList ++ rest) = .ok (v, rest) := by
  obtain ⟨a, b, c, d, e, f, rfl⟩ := vector_six v; rfl

theorem readSeven_toList (v : Vector Byte 7) (rest : List Byte) :
    readSeven (v.toList ++ rest) = .ok (v, rest) := by
  obtain ⟨a, b, c, d, e, f, g, rfl⟩ := vector_seven v; rfl

/-! ### What a reader read -/

/-- What `readNat` answers is below `256^n`, and writing it gives back the bytes read. -/
theorem readNat_eq_ok {n v : Nat} {bs rest : List Byte} (h : readNat n bs = .ok (v, rest)) :
    v < 256 ^ n ∧ writeNat n v ++ rest = bs := by
  induction n generalizing v bs with
  | zero => cases h; simp [writeNat]
  | succ n ih =>
    cases bs with
    | nil => cases h
    | cons b bs =>
      simp only [readNat, except_bind_eq_ok] at h
      obtain ⟨⟨w, r⟩, h1, h2⟩ := h
      cases h2
      obtain ⟨hw, rfl⟩ := ih h1
      have hb := b.isLt
      refine ⟨by rw [pow_succ]; omega, ?_⟩
      rw [writeNat, show (b.toNat + 256 * w) / 256 = w by omega]
      have : BitVec.ofNat 8 (b.toNat + 256 * w) = b := by
        apply BitVec.eq_of_toNat_eq; rw [BitVec.toNat_ofNat]; omega
      rw [this]; rfl

/-- What `readBytes` answers has `n` bytes, and they are the bytes read. -/
theorem readBytes_eq_ok {n : Nat} {bs v rest : List Byte} (h : readBytes n bs = .ok (v, rest)) :
    v.length = n ∧ v ++ rest = bs := by
  induction n generalizing v bs with
  | zero => cases h; simp
  | succ n ih =>
    cases bs with
    | nil => cases h
    | cons b bs =>
      simp only [readBytes, except_bind_eq_ok] at h
      obtain ⟨⟨w, r⟩, h1, h2⟩ := h
      cases h2
      obtain ⟨hw, rfl⟩ := ih h1
      simp [hw]

/-! ### The decoder, label by label -/

theorem decode_cons (label : Byte) (bs : List Byte) :
    decode (label :: bs) = readOperands label bs := rfl

theorem decode_encode_append (i : Instr) (rest : List Byte) :
    decode (encode i ++ rest) = readOperands i.label (i.operandBytes ++ rest) := rfl

theorem readOperands_heTsmux (bs : List Byte) : readOperands 0x4 bs = readHeTsmux bs := rfl
theorem readOperands_heEncode (bs : List Byte) : readOperands 0x5 bs = readHeEncode bs := rfl
theorem readOperands_msAcquire (bs : List Byte) : readOperands 0x6 bs =
    (readNat 2 bs >>= fun r => .ok (.msAcquire r.1, r.2)) := rfl
theorem readOperands_msSend (bs : List Byte) : readOperands 0x8 bs = readMsSend bs := rfl
theorem readOperands_msSendFrag (bs : List Byte) : readOperands 0x9 bs = readMsSendFrag bs := rfl
theorem readOperands_ixRegisterIndex (bs : List Byte) :
    readOperands 0xA bs = readIxRegisterIndex bs := rfl
theorem readOperands_monitorHeader (bs : List Byte) :
    readOperands 0x10 bs = readMonitorHeader bs := rfl
theorem readOperands_indexRecord (bs : List Byte) :
    readOperands 0x11 bs = readIndexRecord bs := rfl

/-! ### What a reader accepts is what the writer writes -/

theorem readByte_eq_ok {bs : List Byte} {b : Byte} {rest : List Byte}
    (h : readByte bs = .ok (b, rest)) : b :: rest = bs := by
  cases bs <;> cases h; rfl

theorem readBit_eq_ok {bs : List Byte} {b : Bool} {rest : List Byte}
    (h : readBit bs = .ok (b, rest)) : writeBit b ++ rest = bs := by
  simp only [readBit, except_bind_eq_ok] at h
  obtain ⟨⟨w, r⟩, h1, h2⟩ := h
  have := readByte_eq_ok h1
  dsimp at h2
  split at h2
  · cases h2; subst_vars; rfl
  · split at h2 <;> cases h2
    subst_vars; rfl

theorem readFixed_eq_ok {v : Byte} {bs : List Byte} {u : Unit} {rest : List Byte}
    (h : readFixed v bs = .ok (u, rest)) : v :: rest = bs := by
  simp only [readFixed, except_bind_eq_ok] at h
  obtain ⟨⟨w, r⟩, h1, h2⟩ := h
  have := readByte_eq_ok h1
  dsimp at h2
  split at h2 <;> cases h2
  subst_vars; rfl

theorem readHalf_eq_ok {bs : List Byte} {v : Half} {rest : List Byte}
    (h : readHalf bs = .ok (v, rest)) : writeHalf v ++ rest = bs := by
  simp only [readHalf, except_bind_eq_ok] at h
  obtain ⟨⟨w, r⟩, h1, h2⟩ := h
  obtain ⟨hw, e⟩ := readNat_eq_ok h1
  cases h2
  rw [← e, writeHalf, BitVec.toNat_ofNat, Nat.mod_eq_of_lt (by omega)]

theorem readWord_eq_ok {bs : List Byte} {v : Word} {rest : List Byte}
    (h : readWord bs = .ok (v, rest)) : writeWord v ++ rest = bs := by
  simp only [readWord, except_bind_eq_ok] at h
  obtain ⟨⟨w, r⟩, h1, h2⟩ := h
  obtain ⟨hw, e⟩ := readNat_eq_ok h1
  cases h2
  rw [← e, writeWord, BitVec.toNat_ofNat, Nat.mod_eq_of_lt (by omega)]

theorem readLong_eq_ok {bs : List Byte} {v : Long} {rest : List Byte}
    (h : readLong bs = .ok (v, rest)) : writeLong v ++ rest = bs := by
  simp only [readLong, except_bind_eq_ok] at h
  obtain ⟨⟨w, r⟩, h1, h2⟩ := h
  obtain ⟨hw, e⟩ := readNat_eq_ok h1
  cases h2
  rw [← e, writeLong, BitVec.toNat_ofNat, Nat.mod_eq_of_lt (by omega)]

theorem readList_eq_ok {bs l rest : List Byte} (h : readList bs = .ok (l, rest)) :
    writeList l ++ rest = bs ∧ lenFits l.length = true := by
  simp only [readList, except_bind_eq_ok] at h
  obtain ⟨⟨w, r⟩, h1, h2⟩ := h
  obtain ⟨hw, e⟩ := readNat_eq_ok h1
  obtain ⟨hw', e'⟩ := readBytes_eq_ok h2
  subst hw'
  exact ⟨by simp only [writeList, List.append_assoc, e, e'],
    by simp only [lenFits, decide_eq_true_eq]; omega⟩

theorem readLists_eq_ok {n : Nat} {bs : List Byte} {l : List (List Byte)} {rest : List Byte}
    (h : readLists n bs = .ok (l, rest)) :
    l.length = n ∧ writeLists l ++ rest = bs ∧ l.all (fun f => lenFits f.length) = true := by
  induction n generalizing bs l with
  | zero => cases h; simp [writeLists]
  | succ n ih =>
    simp only [readLists, except_bind_eq_ok] at h
    obtain ⟨⟨w, r⟩, h1, ⟨w', r'⟩, h2, h3⟩ := h
    cases h3
    obtain ⟨e, f⟩ := readList_eq_ok h1
    obtain ⟨e1, e2, e3⟩ := ih h2
    subst e1
    simp only [writeLists, List.append_assoc, e2, e, List.all_cons, f, e3]; simp

theorem readFrags_eq_ok {bs : List Byte} {l : List (List Byte)} {rest : List Byte}
    (h : readFrags bs = .ok (l, rest)) :
    writeFrags l ++ rest = bs ∧ lenFits l.length = true ∧
      l.all (fun f => lenFits f.length) = true := by
  simp only [readFrags, except_bind_eq_ok] at h
  obtain ⟨⟨w, r⟩, h1, h2⟩ := h
  obtain ⟨hw, e⟩ := readNat_eq_ok h1
  obtain ⟨e1, e2, e3⟩ := readLists_eq_ok h2
  subst e1
  exact ⟨by simp only [writeFrags, List.append_assoc, e2, e],
    by simp only [lenFits, decide_eq_true_eq]; omega, e3⟩

theorem readSix_eq_ok {bs : List Byte} {v : Vector Byte 6} {rest : List Byte}
    (h : readSix bs = .ok (v, rest)) : v.toList ++ rest = bs := by
  simp only [readSix, except_bind_eq_ok] at h
  obtain ⟨⟨_, _⟩, h1, ⟨_, _⟩, h2, ⟨_, _⟩, h3, ⟨_, _⟩, h4, ⟨_, _⟩, h5, ⟨_, _⟩, h6, h⟩ := h
  cases h; dsimp only at *
  rw [← readByte_eq_ok h1, ← readByte_eq_ok h2, ← readByte_eq_ok h3, ← readByte_eq_ok h4,
    ← readByte_eq_ok h5, ← readByte_eq_ok h6]; rfl

theorem readSeven_eq_ok {bs : List Byte} {v : Vector Byte 7} {rest : List Byte}
    (h : readSeven bs = .ok (v, rest)) : v.toList ++ rest = bs := by
  simp only [readSeven, except_bind_eq_ok] at h
  obtain ⟨⟨_, _⟩, h1, ⟨_, _⟩, h2, ⟨_, _⟩, h3, ⟨_, _⟩, h4, ⟨_, _⟩, h5, ⟨_, _⟩, h6, ⟨_, _⟩, h7, h⟩ := h
  cases h; dsimp only at *
  rw [← readByte_eq_ok h1, ← readByte_eq_ok h2, ← readByte_eq_ok h3, ← readByte_eq_ok h4,
    ← readByte_eq_ok h5, ← readByte_eq_ok h6, ← readByte_eq_ok h7]; rfl

theorem readTime_eq_ok {bs : List Byte} {t : TimeAnswer} {rest : List Byte}
    (h : readTime bs = .ok (t, rest)) : writeTime t ++ rest = bs := by
  simp only [readTime, except_bind_eq_ok] at h
  obtain ⟨⟨_, _⟩, h1, ⟨_, _⟩, h2, ⟨_, _⟩, h3, ⟨_, _⟩, h4, h⟩ := h
  cases h; dsimp only at *
  rw [← readBit_eq_ok h1, ← readLong_eq_ok h2, ← readWord_eq_ok h3, ← readLong_eq_ok h4]
  simp [writeTime]

theorem readOvr_eq_ok {bs : List Byte} {o : Option Long} {rest : List Byte}
    (h : readOvr bs = .ok (o, rest)) : writeOvr o ++ rest = bs := by
  simp only [readOvr, except_bind_eq_ok] at h
  obtain ⟨⟨p, _⟩, h1, h⟩ := h
  rw [← readBit_eq_ok h1]
  cases p
  · cases h; rfl
  · simp only [if_true, except_bind_eq_ok] at h
    obtain ⟨⟨_, _⟩, h2, h⟩ := h
    cases h
    rw [← readLong_eq_ok h2]; simp [writeOvr]

/-! ### Header bytes in the two spellings -/

/-- A 16-bit field as two bytes, low byte first (R30). -/
theorem writeHalf_eq (v : Half) : writeHalf v = [v.extractLsb' 0 8, v.extractLsb' 8 8] := by
  simp only [writeHalf, writeNat, List.cons.injEq, and_true]
  constructor <;> apply BitVec.eq_of_toNat_eq <;> simp [Nat.shiftRight_eq_div_pow]

/-- A 32-bit field as four bytes, low byte first (R30). -/
theorem writeWord_eq (v : Word) : writeWord v =
    [v.extractLsb' 0 8, v.extractLsb' 8 8, v.extractLsb' 16 8, v.extractLsb' 24 8] := by
  simp only [writeWord, writeNat, List.cons.injEq, and_true]
  refine ⟨?_, ?_, ?_, ?_⟩ <;> apply BitVec.eq_of_toNat_eq <;>
    simp [Nat.shiftRight_eq_div_pow, Nat.div_div_eq_div_mul]

end Sys2Proof
end

