-- ==== Sys2Proof/Laws/Memory.lean ====
section
/-! SUPPORT. The laws of `storage`: a read after a write, and the canonical form that a write keeps. -/

namespace Sys2Proof.Machine

open Sys2Proof

theorem Memory.wf_nil : Memory.wf [] = true := rfl

theorem Memory.wf_iff (m : List Host.Cell) :
    Memory.wf m = true ↔ m.Pairwise (fun x y => x.1 < y.1) := by
  simp [Memory.wf]

/-- The slots listed after a write are the written one and those listed before. -/
theorem Memory.mem_put (m : List Host.Cell) (a : Nat) (v : Byte) (c : Host.Cell) :
    c ∈ Memory.put m a v → c = (a, v) ∨ c ∈ m := by
  induction m with
  | nil => simp [Memory.put]
  | cons x m ih =>
    obtain ⟨x, w⟩ := x
    simp only [Memory.put]
    split
    · simp
    · split
      · intro h; rcases List.mem_cons.1 h with h | h <;> simp [h]
      · intro h
        rcases List.mem_cons.1 h with h | h
        · simp [h]
        · rcases ih h with h | h <;> simp [h]

/-- A write keeps the canonical form. -/
theorem Memory.put_wf (m : List Host.Cell) (a : Nat) (v : Byte) (h : Memory.wf m = true) :
    Memory.wf (Memory.put m a v) = true := by
  rw [Memory.wf_iff] at *
  induction m with
  | nil => simp [Memory.put]
  | cons x m ih =>
    obtain ⟨x, w⟩ := x
    rw [List.pairwise_cons] at h
    simp only [Memory.put]
    split
    · rename_i hlt
      refine List.pairwise_cons.2 ⟨?_, List.pairwise_cons.2 h⟩
      intro c hc
      rcases List.mem_cons.1 hc with hc | hc
      · simp [hc, hlt]
      · exact Nat.lt_trans hlt (h.1 c hc)
    · split
      · rename_i he
        subst he
        exact List.pairwise_cons.2 ⟨h.1, h.2⟩
      · refine List.pairwise_cons.2 ⟨?_, ih h.2⟩
        intro c hc
        rcases Memory.mem_put m a v c hc with hc | hc
        · simp only [hc]; omega
        · exact h.1 c hc

/-- A read of the written slot gives the written byte. -/
@[simp] theorem Memory.find_put_self (m : List Host.Cell) (a : Nat) (v : Byte) :
    Memory.find (Memory.put m a v) a = some v := by
  induction m with
  | nil => simp [Memory.put, Memory.find]
  | cons x m ih =>
    obtain ⟨x, w⟩ := x
    simp only [Memory.put]
    split
    · simp [Memory.find]
    · split
      · simp [Memory.find]
      · rename_i h1 h2
        simp [Memory.find, Ne.symm h2, ih]

/-- A write leaves every other slot alone. -/
theorem Memory.find_put_of_ne (m : List Host.Cell) {a b : Nat} (v : Byte) (h : b ≠ a) :
    Memory.find (Memory.put m a v) b = Memory.find m b := by
  induction m with
  | nil => simp [Memory.put, Memory.find, Ne.symm h]
  | cons x m ih =>
    obtain ⟨x, w⟩ := x
    simp only [Memory.put]
    split
    · simp [Memory.find, Ne.symm h]
    · split
      · rename_i he
        subst he
        simp [Memory.find, Ne.symm h]
      · simp [Memory.find, ih]

@[simp] theorem Memory.get_put_self (m : List Host.Cell) (a : Nat) (v : Byte) :
    Memory.get (Memory.put m a v) a = v := by
  simp [Memory.get]

theorem Memory.get_put_of_ne (m : List Host.Cell) {a b : Nat} (v : Byte) (h : b ≠ a) :
    Memory.get (Memory.put m a v) b = Memory.get m b := by
  simp [Memory.get, Memory.find_put_of_ne m v h]

/-- A slot that is listed holds its listed byte, whatever the unspecified bytes are. -/
theorem Memory.get_of_find {m : List Host.Cell} {a : Nat} {v : Byte}
    (h : Memory.find m a = some v) : Memory.get m a = v := by
  simp [Memory.get, h]

theorem memRead_of_lt {s : State} {a : Half} (h : a.toNat < capOf s.cfg) :
    memRead s a = some (Memory.get s.storage a.toNat) := by
  simp [memRead, h]

theorem memWrite_of_lt {s : State} {a : Half} (v : Byte) (h : a.toNat < capOf s.cfg) :
    memWrite s a v = some { s with storage := Memory.put s.storage a.toNat v } := by
  simp [memWrite, h]

end Sys2Proof.Machine
end

