-- ==== Sys2Proof/Laws/State.lean ====
section
/-! SUPPORT. The small lemmas of the state updates: what `reply`, `kick`, `afterInit` and `advancePos`
leave in each field. -/

namespace Sys2Proof.Machine

open Sys2Proof

/-! ### `reply` -/

@[simp] theorem reply_cfg (s : State) (a : Answer) : (reply s a).cfg = s.cfg := rfl
@[simp] theorem reply_phase (s : State) (a : Answer) : (reply s a).phase = .running := rfl
@[simp] theorem reply_storage (s : State) (a : Answer) : (reply s a).storage = s.storage := rfl
@[simp] theorem reply_head (s : State) (a : Answer) : (reply s a).head = s.head := rfl
@[simp] theorem reply_tail (s : State) (a : Answer) : (reply s a).tail = s.tail := rfl
@[simp] theorem reply_txActive (s : State) (a : Answer) : (reply s a).txActive = s.txActive := rfl
@[simp] theorem reply_lockOwner (s : State) (a : Answer) : (reply s a).lockOwner = s.lockOwner := rfl
@[simp] theorem reply_req (s : State) (a : Answer) : (reply s a).req = s.req := rfl
@[simp] theorem reply_pos (s : State) (a : Answer) : (reply s a).pos = s.pos := rfl
@[simp] theorem reply_fOverlen (s : State) (a : Answer) : (reply s a).fOverlen = s.fOverlen := rfl
@[simp] theorem reply_wire (s : State) (a : Answer) : (reply s a).wire = s.wire := rfl
@[simp] theorem reply_answer (s : State) (a : Answer) : (reply s a).answer = a := rfl
@[simp] theorem reply_feed (s : State) (a : Answer) : (reply s a).feed = s.feed := rfl

/-! ### `kick` -/

@[simp] theorem kick_cfg (s : State) : (kick s).cfg = s.cfg := rfl
@[simp] theorem kick_phase (s : State) : (kick s).phase = s.phase := rfl
@[simp] theorem kick_storage (s : State) : (kick s).storage = s.storage := rfl
@[simp] theorem kick_head (s : State) : (kick s).head = s.head := rfl
@[simp] theorem kick_tail (s : State) : (kick s).tail = s.tail := rfl
@[simp] theorem kick_txActive (s : State) : (kick s).txActive = true := rfl
@[simp] theorem kick_lockOwner (s : State) : (kick s).lockOwner = s.lockOwner := rfl
@[simp] theorem kick_req (s : State) : (kick s).req = s.req := rfl
@[simp] theorem kick_pos (s : State) : (kick s).pos = s.pos := rfl
@[simp] theorem kick_fOverlen (s : State) : (kick s).fOverlen = s.fOverlen := rfl
@[simp] theorem kick_wire (s : State) : (kick s).wire = s.wire := rfl
@[simp] theorem kick_answer (s : State) : (kick s).answer = s.answer := rfl
@[simp] theorem kick_feed (s : State) : (kick s).feed = s.feed := rfl

/-- A kick while the transmitter is active changes nothing (R75). -/
theorem kick_of_txActive (s : State) (h : s.txActive = true) : kick s = s := by
  cases s; simp only [kick] at *; simp [h]

/-! ### `advancePos` -/

@[simp] theorem advancePos_cfg (s : State) : (advancePos s).cfg = s.cfg := by
  unfold advancePos; split <;> rfl
@[simp] theorem advancePos_phase (s : State) : (advancePos s).phase = s.phase := by
  unfold advancePos; split <;> rfl
@[simp] theorem advancePos_storage (s : State) : (advancePos s).storage = s.storage := by
  unfold advancePos; split <;> rfl
@[simp] theorem advancePos_head (s : State) : (advancePos s).head = s.head := by
  unfold advancePos; split <;> rfl
@[simp] theorem advancePos_tail (s : State) : (advancePos s).tail = s.tail := by
  unfold advancePos; split <;> rfl
@[simp] theorem advancePos_lockOwner (s : State) : (advancePos s).lockOwner = s.lockOwner := by
  unfold advancePos; split <;> rfl
@[simp] theorem advancePos_req (s : State) : (advancePos s).req = s.req := by
  unfold advancePos; split <;> rfl
@[simp] theorem advancePos_pos (s : State) : (advancePos s).pos = s.pos + 1 := by
  unfold advancePos; split <;> rfl
@[simp] theorem advancePos_fOverlen (s : State) : (advancePos s).fOverlen = s.fOverlen := by
  unfold advancePos; split <;> rfl
@[simp] theorem advancePos_wire (s : State) : (advancePos s).wire = s.wire := by
  unfold advancePos; split <;> rfl
@[simp] theorem advancePos_feed (s : State) : (advancePos s).feed = s.feed := by
  unfold advancePos; split <;> rfl

/-- The kick of the header block never changes state, since a push has just kicked (R76). -/
theorem advancePos_of_txActive (s : State) (h : s.txActive = true) :
    advancePos s = { s with pos := s.pos + 1 } := by
  cases s; simp only [advancePos, kick] at *; split <;> simp [h]

/-! ### `afterInit` -/

@[simp] theorem afterInit_beforeInit (s : State) (r : Res) (h : s.phase = .beforeInit) :
    afterInit s r = .refused .beforeInit := by
  simp [afterInit, h]

@[simp] theorem afterInit_started (s : State) (r : Res) (h : s.phase ≠ .beforeInit) :
    afterInit s r = r := by
  cases hp : s.phase <;> simp_all [afterInit]

/-- A step after `INIT` answers a next state exactly where its body does. -/
theorem afterInit_eq_next {s t : State} {r : Res} :
    afterInit s r = .next t ↔ s.phase ≠ .beforeInit ∧ r = .next t := by
  by_cases h : s.phase = .beforeInit
  · simp [h]
  · simp [h]

/-- A step after `INIT` faults exactly where its body does. -/
theorem afterInit_eq_fault {s : State} {f : Fault} {r : Res} :
    afterInit s r = .fault f ↔ s.phase ≠ .beforeInit ∧ r = .fault f := by
  by_cases h : s.phase = .beforeInit
  · simp [h]
  · simp [h]

end Sys2Proof.Machine
end

