-- ==== Sys2Proof/Laws/Ring.lean ====
section
/-! SUPPORT. The index arithmetic as arithmetic modulo `CAP` (R4, R70, R71), the derived flags (R12 to
R14), and one lemma for each shared operation of the ring buffer that says everything it can do. -/

namespace Sys2Proof.Machine

open Sys2Proof

theorem Params.wf_iff (c : Params) : c.wf = true ↔
    1 ≤ c.k ∧ c.k ≤ 16 ∧ 1 ≤ c.nprod ∧ c.nprod ≤ 65536 ∧ 1 ≤ c.nameW := by
  simp [Params.wf, and_assoc]

theorem capOf_pos (c : Params) : 0 < capOf c := Nat.two_pow_pos _

theorem two_le_capOf {c : Params} (h : c.wf = true) : 2 ≤ capOf c := by
  have := (Params.wf_iff c).1 h
  calc 2 = 2 ^ 1 := rfl
    _ ≤ 2 ^ c.k := Nat.pow_le_pow_right (by decide) this.1

theorem capOf_dvd {c : Params} (h : c.wf = true) : capOf c ∣ 65536 := by
  have := (Params.wf_iff c).1 h
  exact Nat.pow_dvd_pow 2 this.2.1

theorem capOf_le {c : Params} (h : c.wf = true) : capOf c ≤ 65536 :=
  Nat.le_of_dvd (by decide) (capOf_dvd h)

/-- Masking with `MASK` is reduction modulo `CAP` (R13). -/
theorem toNat_and_maskOf {c : Params} (h : c.wf = true) (x : Half) :
    (x &&& maskOf c).toNat = x.toNat % capOf c := by
  have h1 := capOf_le h
  have h2 := capOf_pos c
  rw [BitVec.toNat_and, maskOf, BitVec.toNat_ofNat, Nat.mod_eq_of_lt (by omega), capOf,
    Nat.and_two_pow_sub_one_eq_mod]

/-- `inc_wrap(i) = (i + 1) mod CAP` (R70). -/
theorem toNat_incWrap {c : Params} (h : c.wf = true) (i : Half) :
    (incWrap c i).toNat = (i.toNat + 1) % capOf c := by
  rw [incWrap, toNat_and_maskOf h, BitVec.toNat_add]
  exact Nat.mod_mod_of_dvd _ (capOf_dvd h)

theorem toNat_incWrap_lt {c : Params} (h : c.wf = true) (i : Half) :
    (incWrap c i).toNat < capOf c := by
  rw [toNat_incWrap h]; exact Nat.mod_lt _ (capOf_pos c)

/-- `COUNT` is the distance from `tail` up to `head`, modulo `CAP` (R14, R71). -/
theorem toNat_countOf {s : State} (h : s.cfg.wf = true) (ht : s.tail.toNat < capOf s.cfg) :
    (countOf s).toNat = (s.head.toNat + (capOf s.cfg - s.tail.toNat)) % capOf s.cfg := by
  rw [countOf, toNat_and_maskOf h, BitVec.toNat_sub, Nat.mod_mod_of_dvd _ (capOf_dvd h)]
  obtain ⟨d, hd⟩ := capOf_dvd h
  have hle := capOf_le h
  have e : 2 ^ 16 - s.tail.toNat + s.head.toNat
      = (s.head.toNat + (capOf s.cfg - s.tail.toNat)) + capOf s.cfg * (d - 1) := by
    have hd' : 2 ^ 16 = capOf s.cfg + capOf s.cfg * (d - 1) := by
      cases d with
      | zero => simp at hd
      | succ d => simp only [Nat.add_sub_cancel]; rw [show 2 ^ 16 = 65536 from rfl, hd]; ring
    omega
  rw [e, Nat.add_mul_mod_self_left]

/-- The same distance, by cases on whether `head` has wrapped and `tail` has not. -/
theorem toNat_countOf_cases {s : State} (h : s.cfg.wf = true) (hh : s.head.toNat < capOf s.cfg)
    (ht : s.tail.toNat < capOf s.cfg) :
    (countOf s).toNat = if s.tail.toNat ≤ s.head.toNat then s.head.toNat - s.tail.toNat
      else s.head.toNat + capOf s.cfg - s.tail.toNat := by
  rw [toNat_countOf h ht]
  split
  · rw [show s.head.toNat + (capOf s.cfg - s.tail.toNat)
        = (s.head.toNat - s.tail.toNat) + capOf s.cfg by omega, Nat.add_mod_right,
      Nat.mod_eq_of_lt (by omega)]
  · rw [Nat.mod_eq_of_lt (by omega)]; omega

theorem countOf_lt {s : State} (h : s.cfg.wf = true) : (countOf s).toNat < capOf s.cfg := by
  rw [countOf, toNat_and_maskOf h]; exact Nat.mod_lt _ (capOf_pos _)

theorem isEmpty_eq_true_iff (s : State) : isEmpty s = true ↔ s.head = s.tail := by simp [isEmpty]

theorem isFull_eq_true_iff (s : State) : isFull s = true ↔ incWrap s.cfg s.head = s.tail := by
  simp [isFull]

@[simp] theorem length_slotsFrom (c : Params) (m : List Host.Cell) (n : Nat) (i : Half) :
    (slotsFrom c m n i).length = n := by
  induction n generalizing i with
  | zero => rfl
  | succ n ih => simp [slotsFrom, ih]

@[simp] theorem length_queued (s : State) : (queued s).length = (countOf s).toNat := by
  simp [queued]

/-! ### One lemma per operation -/

/-- Everything a push attempt can do (R72): hold on a full buffer, find no slot, or store the byte. -/
theorem pushAttempt_cases (b : Byte) (s : State) :
    (isFull s = true ∧ pushAttempt b s = .hold (kick s)) ∨
    (isFull s = false ∧ ¬ s.head.toNat < capOf s.cfg ∧ pushAttempt b s = .noSlot) ∨
    (isFull s = false ∧ s.head.toNat < capOf s.cfg ∧ pushAttempt b s = .done
      { s with
        storage := Memory.put s.storage s.head.toNat b
        head := incWrap s.cfg s.head
        txActive := true }) := by
  unfold pushAttempt memWrite
  cases hf : isFull s
  · by_cases hh : s.head.toNat < capOf s.cfg
    · simp [hh, kick]
    · simp [hh]
  · simp

/-- Everything a pull can do (R73): stop the transmitter on an empty buffer, find no slot, or take the
oldest byte. -/
theorem pullOne_cases (s : State) :
    (isEmpty s = true ∧ pullOne s = some (none, { s with txActive := false })) ∨
    (isEmpty s = false ∧ ¬ s.tail.toNat < capOf s.cfg ∧ pullOne s = none) ∨
    (isEmpty s = false ∧ s.tail.toNat < capOf s.cfg ∧ pullOne s =
      some (some (Memory.get s.storage s.tail.toNat),
        { s with
          tail := incWrap s.cfg s.tail
          wire := s.wire ++ [Memory.get s.storage s.tail.toNat] })) := by
  unfold pullOne memRead
  cases he : isEmpty s
  · by_cases ht : s.tail.toNat < capOf s.cfg
    · simp [ht]
    · simp [ht]
  · simp

end Sys2Proof.Machine
end

