-- ==== Sys2Proof/Laws/Session.lean ====
section
/-! SUPPORT. One lemma for each shared operation of the session that says everything it can do
(R112, R116, R117), and the lengths of what Operands.lean assembles. -/

namespace Sys2Proof.Machine

open Sys2Proof

@[simp] theorem length_recordOf (hdr : Vector Byte 12) (pay : List Byte) :
    (recordOf hdr pay).length = 12 + pay.length := by
  simp [recordOf]

/-- The name field is exactly NAME_W bytes wide (R131). -/
theorem length_nameField {w : Nat} (hw : 1 ≤ w) (name : List Byte) :
    (nameField w name).length = w := by
  unfold nameField
  split <;> simp <;> omega

/-- The payload of an index record is `8 + NAME_W` bytes long, whatever the name (R130). -/
theorem length_indexPayload {c : Params} (hw : 1 ≤ c.nameW) (busId : Byte)
    (address : Vector Byte 6) (name : List Byte) :
    (indexPayload c busId address name).length = 8 + c.nameW := by
  simp [indexPayload, length_nameField hw]; omega

/-- Everything the acceptance of a request can do (R112): refuse a port that does not exist, leave a busy
port alone, or stage the record. -/
theorem acceptRequest_cases (p : Nat) (opcode : Half) (payload : List Byte) (time : TimeAnswer)
    (s : State) :
    (s.req[p]? = none ∧ acceptRequest p opcode payload time s = .refused .noSuchPort) ∨
    ((∃ hdr pay ovf, s.req[p]? = some (.pending hdr pay ovf)) ∧
      acceptRequest p opcode payload time s = .next (reply s .notEnabled)) ∨
    (s.req[p]? = some .idle ∧ acceptRequest p opcode payload time s = .next (reply
      { s with
        req := s.req.set p
          (.pending (encodeHeader s.cfg opcode payload.length none time) payload
            (isOverLength payload.length))
        fOverlen := s.fOverlen || isOverLength payload.length }
      (.accepted p))) := by
  unfold acceptRequest
  cases h : s.req[p]? with
  | none => simp
  | some r => cases r <;> simp

/-- The owner's record is there exactly when the owner's request is pending. -/
theorem ownerRecord_eq_some {s : State} {bytes : List Byte} :
    ownerRecord s = some bytes ↔ ∃ p hdr pay ovf,
      s.lockOwner = some p ∧ s.req[p]? = some (.pending hdr pay ovf) ∧
      bytes = recordOf hdr pay := by
  unfold ownerRecord
  cases hl : s.lockOwner with
  | none => simp
  | some p =>
    cases hr : s.req[p]? with
    | none => simp [hr]
    | some r =>
      cases r with
      | idle => simp [hr]
      | pending hdr pay ovf =>
        constructor
        · intro h
          exact ⟨p, hdr, pay, ovf, rfl, hr, by simpa [hr, eq_comm] using h⟩
        · rintro ⟨_, _, _, _, hq, h, rfl⟩
          cases hq
          cases hr.symm.trans h
          simp [hr]

/-- `MS.EMIT` is enabled exactly where the lock is held and `pos < 12 + L`, and then it pushes byte
`pos` of the record (R116). -/
theorem nextByte_eq_some {s : State} {b : Byte} :
    nextByte s = some b ↔ ∃ bytes, ownerRecord s = some bytes ∧ bytes[s.pos]? = some b := by
  unfold nextByte
  cases h : ownerRecord s <;> simp

/-- `MS.RELEASE` is enabled exactly where the owner's record is pushed to its end (R117). -/
theorem finishedOwner_eq_some {s : State} {p : Nat} :
    finishedOwner s = some p ↔ s.lockOwner = some p ∧
      ∃ bytes, ownerRecord s = some bytes ∧ s.pos = bytes.length := by
  unfold finishedOwner
  cases hl : s.lockOwner with
  | none => simp
  | some q =>
    cases hr : ownerRecord s with
    | none => simp
    | some bytes => by_cases hp : s.pos = bytes.length <;> simp [hp]

end Sys2Proof.Machine
end

