-- ==== Sys2Proof/Laws/Exec.lean ====
section
/-! SUPPORT. What a step can do, said once: `exec_effect` gives, for a step that answers a next state, which
of its possible effects it had, with the conditions that were met. Invariants and frames are case splits
on `Effect`. -/

namespace Sys2Proof.Machine

open Sys2Proof

/-- The state after a push of `b` (R72), before the answer. -/
def pushedState (b : Byte) (s : State) : State :=
  { s with
    storage := Memory.put s.storage s.head.toNat b
    head := incWrap s.cfg s.head
    txActive := true }

/-- The state after a pull that returns a byte (R73), before the answer. -/
def pulledState (s : State) : State :=
  { s with
    tail := incWrap s.cfg s.tail
    wire := s.wire ++ [Memory.get s.storage s.tail.toNat] }

/-- The state after an acceptance (R112), before the answer. -/
def acceptedState (p : Nat) (opcode : Half) (payload : List Byte) (time : TimeAnswer) (s : State) : State :=
  { s with
    req := s.req.set p
      (.pending (encodeHeader s.cfg opcode payload.length none time) payload
        (isOverLength payload.length))
    fOverlen := s.fOverlen || isOverLength payload.length }

/-- The effects of a step that answers a next state. -/
inductive Effect (s : State) : Instr → State → Prop where
  | disabled {i : Instr} : i ≠ .init → isAgentStep i = true → i ≠ .rbPull →
      Effect s i (reply s .notEnabled)
  | initDone : s.phase ≠ .running → Effect s .init (reply (initialised s) .initDone)
  | pushDone {b : Byte} : isLocked s = true → isFull s = false → s.head.toNat < capOf s.cfg →
      Effect s (.rbPush b) (reply (pushedState b s) .done)
  | pushHold {b : Byte} : isLocked s = true → isFull s = true →
      Effect s (.rbPush b) (reply (kick s) .hold)
  | pullNone : isEmpty s = true →
      Effect s .rbPull (reply { s with txActive := false } (.pulled none))
  | pullSome : isEmpty s = false → s.tail.toNat < capOf s.cfg →
      Effect s .rbPull (reply (pulledState s) (.pulled (some (Memory.get s.storage s.tail.toNat))))
  | kicked : Effect s .rbKick (reply (kick s) .kicked)
  | micros {ovr : Option Long} {time : TimeAnswer} :
      Effect s (.heTsmux ovr time) (reply s (.micros (tsMux s.cfg ovr time)))
  | header {opcode : Half} {len : Nat} {ovr : Option Long} {time : TimeAnswer} :
      Effect s (.heEncode opcode len ovr time)
        (reply s (.header (encodeHeader s.cfg opcode len ovr time)))
  | granted {p : Nat} {hdr : Vector Byte 12} {pay : List Byte} {ovf : Bool} : s.lockOwner = none →
      s.req[p]? = some (.pending hdr pay ovf) →
      Effect s (.msAcquire p) (reply { s with lockOwner := some p, pos := 0 } (.granted p))
  | released {p : Nat} {hdr : Vector Byte 12} {pay : List Byte} {ovf : Bool} :
      s.lockOwner = some p → s.req[p]? = some (.pending hdr pay ovf) → s.pos = 12 + pay.length →
      Effect s .msRelease
        (reply { s with req := s.req.set p .idle, lockOwner := none } (.completed p 0))
  | emitDone {p : Nat} {hdr : Vector Byte 12} {pay : List Byte} {ovf : Bool} {b : Byte} :
      s.lockOwner = some p → s.req[p]? = some (.pending hdr pay ovf) →
      (recordOf hdr pay)[s.pos]? = some b → isFull s = false → s.head.toNat < capOf s.cfg →
      Effect s .msEmit (reply { pushedState b s with pos := s.pos + 1 } .done)
  | emitHold {p : Nat} {hdr : Vector Byte 12} {pay : List Byte} {ovf : Bool} {b : Byte} :
      s.lockOwner = some p → s.req[p]? = some (.pending hdr pay ovf) →
      (recordOf hdr pay)[s.pos]? = some b → isFull s = true →
      Effect s .msEmit (reply (kick s) .hold)
  | accepted {i : Instr} {p : Nat} {opcode : Half} {payload : List Byte} {time : TimeAnswer} :
      roleOf i = .producer p → s.req[p]? = some .idle →
      Effect s i (reply (acceptedState p opcode payload time s) (.accepted p))

/-- The effect of an acceptance, for each of the three requests. -/
theorem acceptRequest_effect {i : Instr} {p : Nat} {opcode : Half} {payload : List Byte}
    {time : TimeAnswer} {s t : State} (hi : roleOf i = .producer p)
    (h : acceptRequest p opcode payload time s = .next t) : Effect s i t := by
  rcases acceptRequest_cases p opcode payload time s with ⟨_, e⟩ | ⟨_, e⟩ | ⟨hr, e⟩ <;>
    rw [e] at h <;> cases h
  · refine .disabled ?_ ?_ ?_
    · rintro rfl; cases hi
    · simp [isAgentStep, hi]
    · rintro rfl; cases hi
  · exact .accepted hi hr

/-- The effect of the framer's per-byte step. -/
theorem execMsEmit_effect {s t : State} (h : execMsEmit s = .next t) : Effect s .msEmit t := by
  obtain ⟨-, h⟩ := afterInit_eq_next.1 h
  cases hn : nextByte s with
  | none => rw [hn] at h; cases h; exact .disabled (by simp) rfl (by simp)
  | some b =>
    rw [hn] at h
    obtain ⟨bytes, ho, hb⟩ := nextByte_eq_some.1 hn
    obtain ⟨p, hdr, pay, ovf, hl, hr, rfl⟩ := ownerRecord_eq_some.1 ho
    rcases pushAttempt_cases b s with ⟨hf, e⟩ | ⟨hf, hh, e⟩ | ⟨hf, hh, e⟩ <;>
      simp only [e] at h <;> cases h
    · exact .emitHold hl hr hb hf
    · rw [advancePos_of_txActive _ rfl]
      exact .emitDone hl hr hb hf hh

/-- What a step did, if it answers a next state. -/
theorem exec_effect {i : Instr} {s t : State} (h : exec i s = .next t) : Effect s i t := by
  cases i with
  | init =>
    simp only [exec, execInit] at h
    cases hp : s.phase <;> rw [hp] at h <;> cases h <;> exact .initDone (by simp [hp])
  | rbPush b =>
    obtain ⟨-, h⟩ := afterInit_eq_next.1 h
    split at h
    · rename_i hl
      rcases pushAttempt_cases b s with ⟨hf, e⟩ | ⟨hf, hh, e⟩ | ⟨hf, hh, e⟩ <;>
        simp only [e] at h <;> cases h
      · exact .pushHold hl hf
      · exact .pushDone hl hf hh
    · cases h
  | rbPull =>
    obtain ⟨-, h⟩ := afterInit_eq_next.1 h
    rcases pullOne_cases s with ⟨he, e⟩ | ⟨he, ht, e⟩ | ⟨he, ht, e⟩ <;>
      simp only [e] at h <;> cases h
    · exact .pullNone he
    · exact .pullSome he ht
  | rbKick => obtain ⟨-, h⟩ := afterInit_eq_next.1 h; cases h; exact .kicked
  | heTsmux ovr time => obtain ⟨-, h⟩ := afterInit_eq_next.1 h; cases h; exact .micros
  | heEncode opcode len ovr time =>
    obtain ⟨-, h⟩ := afterInit_eq_next.1 h; cases h; exact .header
  | msAcquire p =>
    obtain ⟨-, h⟩ := afterInit_eq_next.1 h
    cases hr : s.req[p]? with
    | none => rw [hr] at h; cases h
    | some r =>
      rw [hr] at h
      cases r with
      | idle => cases h; exact .disabled (by simp) rfl (by simp)
      | pending hdr pay ovf =>
        cases hl : s.lockOwner with
        | none => simp only [hl] at h; cases h; exact .granted hl hr
        | some q => simp only [hl] at h; cases h; exact .disabled (by simp) rfl (by simp)
  | msRelease =>
    obtain ⟨-, h⟩ := afterInit_eq_next.1 h
    cases hf : finishedOwner s with
    | none => rw [hf] at h; cases h; exact .disabled (by simp) rfl (by simp)
    | some p =>
      rw [hf] at h
      cases h
      obtain ⟨hl, bytes, ho, hp⟩ := finishedOwner_eq_some.1 hf
      obtain ⟨q, hdr, pay, ovf, hq, hr, rfl⟩ := ownerRecord_eq_some.1 ho
      cases hl.symm.trans hq
      exact .released hl hr (by simpa using hp)
  | msSend p opcode payload time =>
    exact acceptRequest_effect (p := p) rfl (afterInit_eq_next.1 h).2
  | msSendFrag p opcode frags time =>
    exact acceptRequest_effect (p := p) rfl (afterInit_eq_next.1 h).2
  | ixRegisterIndex p busId address name time =>
    obtain ⟨-, h⟩ := afterInit_eq_next.1 h
    split at h
    · exact acceptRequest_effect (p := p) rfl h
    · cases h
  | msEmit => exact execMsEmit_effect h
  | reserved low => cases h
  | monitorHeader dataLen opcode extType ts32 => cases h
  | indexRecord bus address name => cases h

end Sys2Proof.Machine
end

