-- ==== Sys2Proof/Laws/PerInstr.lean ====
section
/-! SUPPORT. Statements about every operation as syntax, one lemma per constructor. -/

namespace Sys2Proof.Laws.OpselLabel

open Sys2Proof Sys2Proof.Machine

/-- R58: the encoding of an operation begins with its label, and the label is one of the twelve OPSEL
values 0x0 to 0xB exactly where the operation is one of R58's, which has an agent or an operation that
invokes it. -/
def Statement (i : Instr) : Prop :=
  (encode i).head? = some i.label ∧ (i.label.toNat < 12 ↔ roleOf i ≠ .nobody)

/-- An operation of R58. -/
theorem operation {i : Instr} (h : decide (i.label.toNat < 12) = true) (hr : roleOf i ≠ .nobody) :
    Statement i :=
  ⟨rfl, iff_of_true (of_decide_eq_true h) hr⟩

/-- No operation of R58. -/
theorem noOperation {i : Instr} (h : decide (i.label.toNat < 12) = false) (hr : roleOf i = .nobody) :
    Statement i :=
  ⟨rfl, iff_of_false (of_decide_eq_false h) (not_not_intro hr)⟩

theorem init : Statement .init := operation rfl nofun

theorem rbPush (b : Byte) : Statement (.rbPush b) := operation rfl nofun

theorem rbPull : Statement .rbPull := operation rfl nofun

theorem rbKick : Statement .rbKick := operation rfl nofun

theorem heTsmux (ovr : Option Long) (time : TimeAnswer) : Statement (.heTsmux ovr time) :=
  operation rfl nofun

theorem heEncode (opcode : Half) (len : Nat) (ovr : Option Long) (time : TimeAnswer) :
    Statement (.heEncode opcode len ovr time) := operation rfl nofun

theorem msAcquire (p : Nat) : Statement (.msAcquire p) := operation rfl nofun

theorem msRelease : Statement .msRelease := operation rfl nofun

theorem msSend (p : Nat) (opcode : Half) (payload : List Byte) (time : TimeAnswer) :
    Statement (.msSend p opcode payload time) := operation rfl nofun

theorem msSendFrag (p : Nat) (opcode : Half) (frags : List (List Byte)) (time : TimeAnswer) :
    Statement (.msSendFrag p opcode frags time) := operation rfl nofun

theorem ixRegisterIndex (p : Nat) (busId : Byte) (address : Vector Byte 6) (name : List Byte)
    (time : TimeAnswer) : Statement (.ixRegisterIndex p busId address name time) := operation rfl nofun

theorem msEmit : Statement .msEmit := operation rfl nofun

theorem reserved (low : BitVec 2) : Statement (.reserved low) := by
  have h : ∀ low : BitVec 2, decide ((Instr.reserved low).label.toNat < 12) = false := by decide
  exact noOperation (h low) rfl

theorem monitorHeader (dataLen opcode : Half) (extType : Byte) (ts32 : Word) :
    Statement (.monitorHeader dataLen opcode extType ts32) := noOperation rfl rfl

theorem indexRecord (bus : Byte) (address : Vector Byte 6) (name : Vector Byte 7) :
    Statement (.indexRecord bus address name) := noOperation rfl rfl

end Sys2Proof.Laws.OpselLabel
end

