-- ==== Sys2Proof/Laws/Queue.lean ====
section
/-! SUPPORT. How a push and a pull move the counter and the queue of bytes (R14, R70 to R73), and each
operation that moves a byte as one equation, which the run properties cite. -/

namespace Sys2Proof.Machine

open Sys2Proof

/-! ### The counter -/

/-- FULL in numbers (R13). -/
theorem isFull_iff_toNat {s : State} (h : s.cfg.wf = true) :
    isFull s = true ↔ (s.head.toNat + 1) % capOf s.cfg = s.tail.toNat := by
  rw [isFull_eq_true_iff, ← toNat_incWrap h]
  exact ⟨fun e => by rw [e], fun e => BitVec.eq_of_toNat_eq e⟩

/-- A push adds one to COUNT. -/
theorem countOf_pushed {s : State} (h : s.cfg.wf = true) (hh : s.head.toNat < capOf s.cfg)
    (ht : s.tail.toNat < capOf s.cfg) (hf : isFull s = false) (b : Byte) :
    (countOf (pushedState b s)).toNat = (countOf s).toNat + 1 := by
  have hf' : ¬ (s.head.toNat + 1) % capOf s.cfg = s.tail.toNat := by
    rw [← isFull_iff_toNat h, hf]; simp
  rw [toNat_countOf_cases (s := pushedState b s) h (toNat_incWrap_lt h _) ht,
    toNat_countOf_cases h hh ht]
  have e : (pushedState b s).head.toNat = (s.head.toNat + 1) % capOf s.cfg := toNat_incWrap h _
  have e2 : (pushedState b s).tail = s.tail := rfl
  have e3 : (pushedState b s).cfg = s.cfg := rfl
  rw [e, e2, e3]
  rcases Nat.lt_or_ge (s.head.toNat + 1) (capOf s.cfg) with hlt | hge
  · rw [Nat.mod_eq_of_lt hlt] at hf' ⊢
    split <;> split <;> omega
  · have : s.head.toNat + 1 = capOf s.cfg := by omega
    rw [this, Nat.mod_self] at hf' ⊢
    split <;> split <;> omega

/-- A pull takes one from COUNT. -/
theorem countOf_pulled {s : State} (h : s.cfg.wf = true) (hh : s.head.toNat < capOf s.cfg)
    (ht : s.tail.toNat < capOf s.cfg) (he : isEmpty s = false) :
    (countOf s).toNat = (countOf (pulledState s)).toNat + 1 := by
  have he' : ¬ s.head.toNat = s.tail.toNat := by
    intro e
    have := (isEmpty_eq_true_iff s).2 (BitVec.eq_of_toNat_eq e)
    rw [this] at he; cases he
  rw [toNat_countOf_cases (s := pulledState s) h hh (toNat_incWrap_lt h _),
    toNat_countOf_cases h hh ht]
  have e : (pulledState s).tail.toNat = (s.tail.toNat + 1) % capOf s.cfg := toNat_incWrap h _
  have e2 : (pulledState s).head = s.head := rfl
  have e3 : (pulledState s).cfg = s.cfg := rfl
  rw [e, e2, e3]
  rcases Nat.lt_or_ge (s.tail.toNat + 1) (capOf s.cfg) with hlt | hge
  · rw [Nat.mod_eq_of_lt hlt]
    split <;> split <;> omega
  · have : s.tail.toNat + 1 = capOf s.cfg := by omega
    rw [this, Nat.mod_self]
    split <;> split <;> omega

/-- `head` is COUNT slots after `tail`, around the wrap. -/
theorem head_eq_tail_add_count {s : State} (h : s.cfg.wf = true) (hh : s.head.toNat < capOf s.cfg)
    (ht : s.tail.toNat < capOf s.cfg) :
    s.head.toNat = (s.tail.toNat + (countOf s).toNat) % capOf s.cfg := by
  rw [toNat_countOf_cases h hh ht]
  split
  · rw [Nat.mod_eq_of_lt (by omega)]; omega
  · rw [show s.tail.toNat + (s.head.toNat + capOf s.cfg - s.tail.toNat)
      = s.head.toNat + capOf s.cfg by omega, Nat.add_mod_right, Nat.mod_eq_of_lt hh]

/-! ### The queue -/

/-- The slots from `i` on, by their offset. -/
theorem slotsFrom_eq_map {c : Params} (h : c.wf = true) (m : List Host.Cell) (n : Nat) (i : Half)
    (hi : i.toNat < capOf c) :
    slotsFrom c m n i = (List.range n).map (fun j => Memory.get m ((i.toNat + j) % capOf c)) := by
  induction n generalizing i with
  | zero => rfl
  | succ n ih =>
    rw [slotsFrom, ih _ (toNat_incWrap_lt h i), List.range_succ_eq_map, List.map_cons, Nat.add_zero,
      Nat.mod_eq_of_lt hi, List.map_map]
    congr 1
    apply List.map_congr_left
    intro j _
    simp only [Function.comp, toNat_incWrap h]
    congr 1
    rw [Nat.mod_add_mod]; congr 1; omega

/-- The queued bytes, by their offset from `tail`. -/
theorem queued_eq_map {s : State} (h : s.cfg.wf = true) (ht : s.tail.toNat < capOf s.cfg) :
    queued s = (List.range (countOf s).toNat).map
      (fun j => Memory.get s.storage ((s.tail.toNat + j) % capOf s.cfg)) :=
  slotsFrom_eq_map h _ _ _ ht

/-- A push appends its byte to the queue. -/
theorem queued_pushed {s : State} (h : s.cfg.wf = true) (hh : s.head.toNat < capOf s.cfg)
    (ht : s.tail.toNat < capOf s.cfg) (hf : isFull s = false) (b : Byte) :
    queued (pushedState b s) = queued s ++ [b] := by
  have hc := countOf_pushed h hh ht hf b
  have hlt := countOf_lt (s := pushedState b s) h
  have e3 : (pushedState b s).cfg = s.cfg := rfl
  have e2 : (pushedState b s).tail = s.tail := rfl
  rw [e3] at hlt
  rw [queued_eq_map (s := pushedState b s) h ht, queued_eq_map h ht, hc, List.range_succ,
    List.map_append, e2, e3]
  have key := head_eq_tail_add_count h hh ht
  congr 1
  · apply List.map_congr_left
    intro j hj
    apply Memory.get_put_of_ne
    rw [key]
    intro e
    have hj := List.mem_range.1 hj
    have : j % capOf s.cfg = (countOf s).toNat % capOf s.cfg :=
      Nat.ModEq.add_left_cancel' s.tail.toNat e
    rw [Nat.mod_eq_of_lt (by omega), Nat.mod_eq_of_lt (by omega)] at this
    omega
  · simp only [List.map_cons, List.map_nil]
    rw [← key]; exact congrArg (fun x => [x]) (Memory.get_put_self _ _ _)

/-- A pull takes the oldest byte from the queue. -/
theorem queued_pulled {s : State} (h : s.cfg.wf = true) (hh : s.head.toNat < capOf s.cfg)
    (ht : s.tail.toNat < capOf s.cfg) (he : isEmpty s = false) :
    queued s = Memory.get s.storage s.tail.toNat :: queued (pulledState s) := by
  rw [queued, countOf_pulled h hh ht he]; rfl

/-- In a legal state `head` is the number of bytes pushed since reset, modulo CAP (R37). -/
theorem StateInv.head_eq {s : State} (hs : StateInv s) :
    s.head.toNat = (emitted s).length % capOf s.cfg := by
  rw [head_eq_tail_add_count hs.params hs.headSlot hs.tailSlot, emitted, List.length_append,
    length_queued, hs.tailAt]
  exact Nat.mod_add_mod _ _ _

/-- With two slots or more a full buffer is not empty (R12, R13). -/
theorem isEmpty_of_isFull {s : State} (h : s.cfg.wf = true) (hh : s.head.toNat < capOf s.cfg)
    (hf : isFull s = true) : isEmpty s = false := by
  rw [isFull_iff_toNat h] at hf
  have h2 := two_le_capOf h
  cases he : isEmpty s with
  | false => rfl
  | true =>
    rw [isEmpty_eq_true_iff] at he
    rw [← he] at hf
    rcases Nat.lt_or_ge (s.head.toNat + 1) (capOf s.cfg) with hlt | hge
    · rw [Nat.mod_eq_of_lt hlt] at hf; omega
    · rw [show s.head.toNat + 1 = capOf s.cfg by omega, Nat.mod_self] at hf; omega

/-- A pull from a full buffer leaves it not full. -/
theorem isFull_pulled {s : State} (h : s.cfg.wf = true) (ht : s.tail.toNat < capOf s.cfg)
    (hf : isFull s = true) : isFull (pulledState s) = false := by
  have hf' := (isFull_eq_true_iff s).1 hf
  have h2 := two_le_capOf h
  rw [← Bool.not_eq_true, isFull_eq_true_iff]
  change ¬ incWrap s.cfg s.head = incWrap s.cfg s.tail
  rw [hf']
  intro e
  have := congrArg BitVec.toNat e
  rw [toNat_incWrap h] at this
  rcases Nat.lt_or_ge (s.tail.toNat + 1) (capOf s.cfg) with hlt | hge
  · rw [Nat.mod_eq_of_lt hlt] at this; omega
  · rw [show s.tail.toNat + 1 = capOf s.cfg by omega, Nat.mod_self] at this; omega

/-! ### The operations that move a byte, as equations -/

/-- A push by the lock holder is one push attempt. -/
theorem execRbPush_of_locked {b : Byte} {s : State} (hs : s.phase ≠ .beforeInit)
    (hl : isLocked s = true) (hh : s.head.toNat < capOf s.cfg) :
    execRbPush b s = .next (if isFull s then reply (kick s) .hold
      else reply (pushedState b s) .done) := by
  simp only [execRbPush, afterInit_started _ _ hs, hl, if_true]
  rcases pushAttempt_cases b s with ⟨hf, e⟩ | ⟨hf, hh', e⟩ | ⟨hf, hh, e⟩
  · simp [e, hf]
  · exact absurd hh hh'
  · simp only [e, hf]; rfl

/-- A pull from a buffer that is not empty. -/
theorem execRbPull_of_not_empty {s : State} (hs : s.phase ≠ .beforeInit) (he : isEmpty s = false)
    (ht : s.tail.toNat < capOf s.cfg) :
    execRbPull s
      = .next (reply (pulledState s) (.pulled (some (Memory.get s.storage s.tail.toNat)))) := by
  simp [execRbPull, hs, pullOne, he, memRead, ht]; rfl

/-- The byte that `MS.EMIT` pushes. -/
theorem nextByte_of_owner {s : State} {p : Nat} {hdr : Vector Byte 12} {pay : List Byte} {ovf : Bool}
    {b : Byte} (hl : s.lockOwner = some p) (hr : s.req[p]? = some (.pending hdr pay ovf))
    (hb : (recordOf hdr pay)[s.pos]? = some b) : nextByte s = some b :=
  nextByte_eq_some.2 ⟨_, ownerRecord_eq_some.2 ⟨p, hdr, pay, ovf, hl, hr, rfl⟩, hb⟩

/-- `MS.EMIT` where it is enabled. -/
theorem execMsEmit_of_owner {s : State} {p : Nat} {hdr : Vector Byte 12} {pay : List Byte}
    {ovf : Bool} {b : Byte} (hs : s.phase ≠ .beforeInit) (hl : s.lockOwner = some p)
    (hr : s.req[p]? = some (.pending hdr pay ovf)) (hb : (recordOf hdr pay)[s.pos]? = some b)
    (hh : s.head.toNat < capOf s.cfg) :
    execMsEmit s = .next (if isFull s then reply (kick s) .hold
      else reply { pushedState b s with pos := s.pos + 1 } .done) := by
  simp only [execMsEmit, afterInit_started _ _ hs, nextByte_of_owner hl hr hb]
  rcases pushAttempt_cases b s with ⟨hf, e⟩ | ⟨hf, hh', e⟩ | ⟨hf, hh, e⟩
  · simp [e, hf]
  · exact absurd hh hh'
  · simp only [e, hf]; rw [advancePos_of_txActive _ rfl]; rfl

/-- `MS.RELEASE` where it is enabled. -/
theorem execMsRelease_of_owner {s : State} {p : Nat} {hdr : Vector Byte 12} {pay : List Byte}
    {ovf : Bool} (hs : s.phase ≠ .beforeInit) (hl : s.lockOwner = some p)
    (hr : s.req[p]? = some (.pending hdr pay ovf)) (hp : s.pos = 12 + pay.length) :
    execMsRelease s = .next
      (reply { s with req := s.req.set p .idle, lockOwner := none } (.completed p 0)) := by
  have hf : finishedOwner s = some p := finishedOwner_eq_some.2
    ⟨hl, _, ownerRecord_eq_some.2 ⟨p, hdr, pay, ovf, hl, hr, rfl⟩, by simpa using hp⟩
  simp only [execMsRelease, afterInit_started _ _ hs, hf]

/-! ### What remains of the owner's record -/

theorem remaining_of_owner {s : State} {p : Nat} {hdr : Vector Byte 12} {pay : List Byte}
    {ovf : Bool} (hl : s.lockOwner = some p) (hr : s.req[p]? = some (.pending hdr pay ovf)) :
    remaining s = (recordOf hdr pay).drop s.pos := by
  simp [remaining, ownerRecord_eq_some.2 ⟨p, hdr, pay, ovf, hl, hr, rfl⟩]

theorem remaining_of_free {s : State} (hl : s.lockOwner = none) : remaining s = [] := by
  simp [remaining, ownerRecord, hl]

theorem remaining_congr {s t : State} (h1 : t.lockOwner = s.lockOwner) (h2 : t.req = s.req)
    (h3 : t.pos = s.pos) : remaining t = remaining s := by
  simp [remaining, ownerRecord, h1, h2, h3]

end Sys2Proof.Machine
end

