-- ==== Sys2Proof/Tests/Slice0.lean ====
section
/-! SUPPORT. Tests: ill-formed labels that the check refuses, words written out from the spec's encodings,
vectors of 95_test_vectors.md, and for each obligation with hypotheses a state that meets them. -/

namespace Sys2Proof.Tests

open Sys2Proof Sys2Proof.Machine

/-! ### Helpers -/

/-- Parameters with `K = k`, the rest at R4's defaults. -/
def withK (k : Nat) : Params := { Params.default with k := k }

/-- The state that a run reaches, if no step of it stops. -/
def reached (is : List Instr) (s : State) : Option State :=
  match runSteps is s with
  | .next t => some t
  | .fault _ => none
  | .refused _ => none

/-- The outcome, `head`, `tail`, `tx_active` and STAT, the columns of the tables of part 2. -/
def row (is : List Instr) (s : State) : Option (Answer × Half × Half × Bool × Word) :=
  (reached is s).map (fun t => (t.answer, t.head, t.tail, t.txActive, statView t))

/-- The time answer of vectors E2 and S1. -/
def timeE2 : TimeAnswer := ⟨false, 0, 0, 123456789⟩

/-- A time answer with a monotonic counter of `m` and no wall clock. -/
def mono (m : Long) : TimeAnswer := ⟨false, 0, 0, m⟩

/-- The block after `INIT` with `K = k` and the session lock held by producer 0: part 2 makes its pushes "on
behalf of a lock owner". -/
def owned (k : Nat) : State := { State.resetOf (withK k) with lockOwner := some 0 }

/-- `row` with STAT as the tables of vectors B1 and B2 show it, "with LOCKED = 0, OWNER = 0". -/
def ringRow (is : List Instr) (s : State) : Option (Answer × Half × Half × Bool × Word) :=
  (reached is s).map (fun t =>
    (t.answer, t.head, t.tail, t.txActive, statView { t with lockOwner := none }))

/-- Three pushes on four slots: vector B1 up to step 3. -/
def three : List Instr := [.rbPush 0xA1, .rbPush 0xA2, .rbPush 0xA3]

/-- Program P2 up to its grant. -/
def sendP2 : List Instr := [.init, .msSend 0 0x0007 [0x11, 0x22] (mono 1000000), .msAcquire 0]

/-! ### WellFormed: each check refuses an ill-formed label -/

theorem test_wf_port : (Instr.msAcquire 65536).wf = false := by decide
theorem test_wf_port_limit : (Instr.msAcquire 65535).wf = true := by decide
theorem test_wf_send_port : (Instr.msSend 65536 0 [] timeE2).wf = false := by decide
theorem test_wf_frag_port : (Instr.msSendFrag 65536 0 [] timeE2).wf = false := by decide
theorem test_wf_index_port :
    (Instr.ixRegisterIndex 65536 0 #v[0, 0, 0, 0, 0, 0] [] timeE2).wf = false := by decide
theorem test_wf_length : (Instr.heEncode 0 4294967296 none timeE2).wf = false := by decide
theorem test_wf_length_limit : (Instr.heEncode 0 4294967295 none timeE2).wf = true := by decide

/-- I4: the bytes `61 00 62` are no name. -/
theorem test_wf_name :
    (Instr.ixRegisterIndex 0 0 #v[0, 0, 0, 0, 0, 0] [0x61, 0x00, 0x62] timeE2).wf = false := by decide

/-! ### Decoding: bytes written out from R58, R50 and R53 (operands as log entry 1 lays them out) -/

theorem test_decode_init : decode [0x00] = .ok (.init, []) := by decide
theorem test_decode_push : decode [0x01, 0xA1] = .ok (.rbPush 0xA1, []) := by decide
theorem test_decode_pull : decode [0x02, 0x03] = .ok (.rbPull, [0x03]) := by decide
theorem test_decode_kick : decode [0x03] = .ok (.rbKick, []) := by decide
theorem test_decode_tsmux : decode [0x04, 1, 99, 0, 0, 0, 0, 0, 0, 0, 1, 0x00, 0x15, 0x86, 0x56, 0, 0, 0,
    0, 7, 0, 0, 0, 5, 0, 0, 0, 0, 0, 0, 0] =
    .ok (.heTsmux (some 99) ⟨true, 1451627776, 7, 5⟩, []) := by decide
theorem test_decode_encode : decode [0x05, 0xEF, 0xBE, 0x2C, 0x01, 0, 0, 0, 0, 0, 0, 0, 0, 0, 0, 0, 0, 0,
    0, 0, 0, 0xFA, 0, 0, 0, 0, 0, 0, 0] = .ok (.heEncode 0xBEEF 300 none (mono 250), []) := by decide
theorem test_decode_acquire : decode [0x06, 0x01, 0x02] = .ok (.msAcquire 0x0201, []) := by decide
theorem test_decode_release : decode [0x07] = .ok (.msRelease, []) := by decide
theorem test_decode_send : decode [0x08, 1, 0, 0x07, 0x00, 2, 0, 0, 0, 0x11, 0x22, 0, 0, 0, 0, 0, 0, 0, 0,
    0, 0, 0, 0, 0, 0x64, 0, 0, 0, 0, 0, 0, 0] =
    .ok (.msSend 1 0x0007 [0x11, 0x22] (mono 100), []) := by decide
theorem test_decode_send_frag : decode [0x09, 1, 0, 0x04, 0x00, 3, 0, 0, 0, 1, 0, 0, 0, 0x10, 0, 0, 0, 0,
    2, 0, 0, 0, 0x20, 0x30, 0, 0, 0, 0, 0, 0, 0, 0, 0, 0, 0, 0, 0, 0x64, 0, 0, 0, 0, 0, 0, 0] =
    .ok (.msSendFrag 1 0x0004 [[0x10], [], [0x20, 0x30]] (mono 100), []) := by decide
theorem test_decode_register : decode [0x0A, 0, 0, 0xFF, 0xFF, 0xEE, 0xDD, 0xCC, 0xBB, 0xAA, 1, 0, 0, 0,
    0x61, 0, 0, 0, 0, 0, 0, 0, 0, 0, 0, 0, 0, 0, 0, 0, 0, 0, 0, 0, 0, 0] =
    .ok (.ixRegisterIndex 0 0xFF #v[0xFF, 0xEE, 0xDD, 0xCC, 0xBB, 0xAA] [0x61] (mono 0), []) := by
  decide
theorem test_decode_emit : decode [0x0B] = .ok (.msEmit, []) := by decide
theorem test_decode_reserved : decode [0x0E] = .ok (.reserved 2, []) := by decide

/-- Vector E4's header bytes behind the label of R50's pattern. -/
theorem test_decode_header :
    decode [0x10, 0x35, 0x01, 0x05, 0xEF, 0xBE, 0x00, 0x00, 0x08, 0x10, 0x27, 0x00, 0x00] =
      .ok (.monitorHeader 309 0xBEEF 0x08 0x00002710, []) := by decide

/-- A header whose `hdr_len` is not 5 is none (R50). -/
theorem test_decode_header_fixed :
    decode [0x10, 0x35, 0x01, 0x06, 0xEF, 0xBE, 0x00, 0x00, 0x08, 0x10, 0x27, 0x00, 0x00] =
      .error (.badFixedByte 0x06) := by decide

/-- Program P4's payload behind the label of R53's pattern. -/
theorem test_decode_record :
    decode [0x11, 0x00, 0x01, 0x11, 0x22, 0x33, 0x44, 0x55, 0x66, 0x6E, 0x69, 0x6D, 0x62, 0x6C, 0x65,
      0x2D, 0x00] =
      .ok (.indexRecord 0x01 #v[0x11, 0x22, 0x33, 0x44, 0x55, 0x66]
        #v[0x6E, 0x69, 0x6D, 0x62, 0x6C, 0x65, 0x2D], []) := by decide

theorem test_decode_truncated : decode [0x06, 0x01] = .error .truncated := by decide
theorem test_decode_bad_bit : decode [0x04, 2] = .error (.badBit 2) := by decide

/-! ### Table words and fetching -/

theorem test_table_emit : decodeTableWord 8 0xB = some .msEmit := by decide

/-- The 96 bits of R50 with `data_len = 9`, byte 0 lowest. -/
theorem test_table_header :
    decodeTableWord 96 0x000000000800000000050009 = some (.monitorHeader 9 0 0x08 0) := by decide

theorem test_fetch_kick :
    ((match step (State.reset.withFetchWord 8 0x3) with
      | .next t => some (t.txActive, t.feed, t.answer)
      | _ => none) : Option (Bool × List Byte × Answer)) = some (true, [], .kicked) := by decide

/-! ### The ring buffer: vectors B1, B2, B4, B5 -/

/-- B1 step 3: the third byte fills four slots; with the lock free the push is refused (R83). -/
theorem test_push_fills : ringRow three (owned 2) = some (.done, 3, 0, true, 0x00000006) ∧
    exec (.rbPush 0xA1) State.reset = .refused .pushWithoutLock := ⟨by decide, rfl⟩

/-- B1 steps 4 and 6: HOLD on a full buffer, and the push that wraps `head` after one pull. -/
theorem test_push_hold_and_wrap :
    ringRow (three ++ [.rbPush 0xA4]) (owned 2) = some (.hold, 3, 0, true, 0x00000006) ∧
    ringRow (three ++ [.rbPush 0xA4, .rbPull, .rbPush 0xA4]) (owned 2) =
      some (.done, 0, 1, true, 0x00000006) := by decide

/-- B2 steps 3 to 6: one usable slot; the last pull answers `None` and stops the transmitter. -/
theorem test_pull_last_and_none :
    ringRow [.rbPush 0x55, .rbPush 0x66, .rbPull] (owned 1) =
      some (.pulled (some 0x55), 1, 1, true, 0x00000005) ∧
    ringRow [.rbPush 0x55, .rbPull, .rbPush 0x66, .rbPull, .rbPull] (owned 1) =
      some (.pulled none, 0, 0, false, 0x00000001) := by decide

/-- B5: a kick on an empty idle buffer, and the pull it allows. -/
theorem test_kick_then_pull :
    row [.init, .rbKick] State.reset = some (.kicked, 0, 0, true, 0x00000005) ∧
    row [.init, .rbKick, .rbPull] State.reset = some (.pulled none, 0, 0, false, 0x00000001) := by
  decide

/-- B4: index arithmetic at the wrap. -/
theorem test_inc_wrap : incWrap (withK 6) 62 = 63 ∧ incWrap (withK 6) 63 = 0 ∧
    incWrap (withK 16) 65535 = 0 ∧
    countOf { State.reset with head := 5, tail := 6 } = 63 ∧
    isFull { State.reset with head := 5, tail := 6 } = true ∧
    countOf { State.reset with head := 0, tail := 63 } = 1 := by decide

/-! ### The header encoder: the E vectors -/

/-- E1, E3 and E13: the floor itself is accepted, one microsecond before it is not, 0 is an override. -/
theorem test_tsmux :
    tsMux Params.default none ⟨true, 1451606400, 0, 0⟩ = 1451606400000000 ∧
    tsMux Params.default none ⟨true, 1451606399, 999999, 5000⟩ = 5000 ∧
    tsMux Params.default (some 0) ⟨true, 1451606400, 0, 5⟩ = 0 := by decide

/-- E14: a clock that fails is not used, whatever its seconds say. -/
theorem test_tsmux_step :
    (reached [.heTsmux none ⟨false, 1700000000, 0, 300⟩] State.reset).map State.answer =
      some (.micros 300) := by decide

/-- E11 and E10: the header bytes, and the length field that wraps to 0. -/
theorem test_encode_bytes :
    (encodeHeader Params.default 0x1234 246 none ⟨true, 1700000000, 123456, 0⟩).toList =
      [0xFF, 0x00, 0x05, 0x34, 0x12, 0x00, 0x00, 0x08, 0xD2, 0x14, 0xF6, 0x1E] ∧
    (encodeHeader Params.default 0x0000 65527 none (mono 429496729600)).toList =
      [0x00, 0x00, 0x05, 0x00, 0x00, 0x00, 0x00, 0x08, 0x00, 0x00, 0x00, 0x00] := by decide

/-- E8 as a step: `ts32` wraps at 2^32 ticks and drops the remainder. -/
theorem test_encode_step :
    (reached [.heEncode 0x0001 1 (some 429496729799) (mono 0)] State.reset).map State.answer =
      some (.header #v[0x0A, 0x00, 0x05, 0x01, 0x00, 0x00, 0x00, 0x08, 0x01, 0x00, 0x00, 0x00]) := by
  decide

/-! ### The session: S1 to S9, P2 -/

/-- S1: acceptance stages E2's header and leaves the buffer alone. -/
theorem test_send_accepts :
    (reached [.init, .msSend 0 0x0002 [0xAA, 0xAA, 0xAA, 0xAA, 0xAA, 0xAA, 0xAA, 0xAA, 0xAA, 0xAA] timeE2]
      State.reset).map (fun t => (t.req[0]?, statView t)) =
    some (some (Req.pending
      #v[0x13, 0x00, 0x05, 0x02, 0x00, 0x00, 0x00, 0x08, 0x87, 0xD6, 0x12, 0x00]
      [0xAA, 0xAA, 0xAA, 0xAA, 0xAA, 0xAA, 0xAA, 0xAA, 0xAA, 0xAA] false), 0x00000001) := by decide

/-- S7: a second request on the busy port is not accepted. -/
theorem test_send_busy :
    row [.init, .msSend 0 3 [] (mono 0), .msSend 0 4 [1] (mono 0)] State.reset =
      some (.notEnabled, 0, 0, false, 0x00000001) := by decide

/-- S5: three fragments, one of them empty, are staged as the send of `10 20 30`. -/
theorem test_send_frag :
    (reached [.init, .msSendFrag 1 0x0004 [[0x10], [], [0x20, 0x30]] (mono 100)] State.reset).map
      (fun t => t.req[1]?) =
    some (some (Req.pending
      #v[0x0C, 0x00, 0x05, 0x04, 0x00, 0x00, 0x00, 0x08, 0x01, 0x00, 0x00, 0x00]
      [0x10, 0x20, 0x30] false)) := by decide

/-- S2: the view STAT after a grant to producer 1. -/
theorem test_acquire : row [.init, .msSend 1 2 [] timeE2, .msAcquire 1] State.reset =
    some (.granted 1, 0, 0, false, 0x00010009) := by decide

/-- S8: with the lock held another grant is no step. -/
theorem test_acquire_held :
    row [.init, .msSend 0 2 [] timeE2, .msSend 1 2 [] timeE2, .msAcquire 0, .msAcquire 1] State.reset =
      some (.notEnabled, 0, 0, false, 0x00000009) := by decide

/-- P2 steps 1 and 4: the first byte goes in, the fourth attempt holds. -/
theorem test_emit :
    row (sendP2 ++ [.msEmit]) (State.resetOf (withK 2)) = some (.done, 1, 0, true, 0x0000000C) ∧
    row (sendP2 ++ [.msEmit, .msEmit, .msEmit, .msEmit]) (State.resetOf (withK 2)) =
      some (.hold, 3, 0, true, 0x0000000E) := by decide

/-- S4: an empty record is twelve bytes; the release completes the port with DONE(0). -/
theorem test_release :
    (reached ([.init, .msSend 0 0x0003 [] (mono 5000), .msAcquire 0] ++ List.replicate 12 .msEmit
      ++ [.msRelease]) State.reset).map (fun t => (t.answer, t.lockOwner, t.req, t.pos)) =
    some (.completed 0 0, none, [Req.idle, Req.idle], 12) := by decide

/-- A release before the record's end is no step (R117). -/
theorem test_release_early : row (sendP2 ++ [.msRelease]) State.reset =
    some (.notEnabled, 0, 0, false, 0x00000009) := by decide

/-- S9 by its lengths: 65526 bytes fit the budget, 65527 do not. -/
theorem test_overlength : isOverLength 65526 = false ∧ isOverLength 65527 = true := by decide

/-! ### Index registration: N and I vectors -/

theorem test_name_field :
    nameField 8 [] = [0, 0, 0, 0, 0, 0, 0, 0] ∧
    nameField 8 [0x31, 0x32, 0x33, 0x34, 0x35, 0x36, 0x37] =
      [0x31, 0x32, 0x33, 0x34, 0x35, 0x36, 0x37, 0x00] ∧
    nameField 8 [0x31, 0x32, 0x33, 0x34, 0x35, 0x36, 0x37, 0x38] =
      [0x31, 0x32, 0x33, 0x34, 0x35, 0x36, 0x37, 0x00] ∧
    nameField 1 [0x61, 0x62, 0x63] = [0x00] := by decide

/-- I2: payload and header of a registration. -/
theorem test_register_index :
    (reached [.init, .ixRegisterIndex 0 0xFF #v[0xFF, 0xEE, 0xDD, 0xCC, 0xBB, 0xAA]
      [0x68, 0x63, 0x69, 0x30] (mono 0)] State.reset).map (fun t => t.req[0]?) =
    some (some (Req.pending
      #v[0x19, 0x00, 0x05, 0x00, 0x00, 0x00, 0x00, 0x08, 0x00, 0x00, 0x00, 0x00]
      [0x00, 0xFF, 0xFF, 0xEE, 0xDD, 0xCC, 0xBB, 0xAA, 0x68, 0x63, 0x69, 0x30, 0, 0, 0, 0] false)) := by
  decide

/-- I4: a name that holds 0x00 is refused. -/
theorem test_register_index_nul :
    exec (.ixRegisterIndex 0 0 #v[0, 0, 0, 0, 0, 0] [0x61, 0x00, 0x62] (mono 0)) State.reset =
      .refused .nameHasNul := rfl

/-! ### Reset and reserved: Z1, Z2 -/

theorem test_init : row [.init] { State.reset with phase := .beforeInit, head := 9, pos := 3 } =
    some (.initDone, 0, 0, false, 0x00000001) := by decide

/-- Z2: reserved OPSELs, a step before `INIT`, and a later `INIT` are refused. -/
theorem test_refused :
    exec (.reserved 1) State.reset = .refused (.reservedOpsel 1) ∧
    exec .rbPull { State.reset with phase := .beforeInit } = .refused .beforeInit ∧
    exec .init { State.reset with phase := .running } = .refused .initNotFirst ∧
    exec (.monitorHeader 9 0 8 0) State.reset = .refused .headerIsNoOperation ∧
    exec (.indexRecord 0 #v[0, 0, 0, 0, 0, 0] #v[0, 0, 0, 0, 0, 0, 0]) State.reset =
      .refused .recordIsNoOperation := ⟨rfl, rfl, rfl, rfl, rfl⟩

/-! ### Witnesses: for each obligation with hypotheses, states and operands that meet them -/

/-- A legal state in mid-record: two slots, one byte queued (so the buffer is full), producer 1 holds the
lock and has pushed the first of its 13 bytes. -/
def held : State :=
  { State.resetOf (withK 1) with
    phase := .running
    storage := [(0, 0x0A)]
    head := 1
    txActive := true
    lockOwner := some 1
    req := [.idle, .pending (headerBytes (withK 1) (dataLen 1) 0x0002 0) [0xAA] false]
    pos := 1 }

/-- `held` at the end of its record, with the buffer drained. -/
def finished : State := { held with tail := 1, wire := [0x0A], pos := 13 }

/-- The requests of `held`, port by port. -/
theorem held_req (p : Nat) (hdr : Vector Byte 12) (pay : List Byte) (ovf : Bool)
    (h : held.req[p]? = some (Req.pending hdr pay ovf)) :
    p = 1 ∧ hdr = headerBytes (withK 1) (dataLen 1) 0x0002 0 ∧ pay = [0xAA] ∧ ovf = false := by
  match p, h with
  | 0, h => cases h
  | 1, h => cases h; exact ⟨rfl, rfl, rfl, rfl⟩
  | n + 2, h => simp [held] at h

theorem held_legal : StateInv held where
  params := by decide
  started := by decide
  headSlot := by decide
  tailSlot := by decide
  storageForm := by decide
  storageSlots := by decide
  queuedWritten := by decide
  drain := by decide
  ports := by decide
  owner := by
    intro p hp
    cases hp
    exact ⟨_, _, _, rfl, by decide⟩
  staged := by
    intro p hdr pay ovf h
    obtain ⟨-, rfl, rfl, rfl⟩ := held_req p hdr pay ovf h
    exact ⟨by decide, by decide, _, _, rfl⟩
  tailAt := by decide

/-- DecodeOfEncodeIsTheInstruction: operands at the top of their fields. -/
theorem witness_fits : (Instr.msSend 65535 0xFFFF [0xFF] timeE2).fits = true := by decide

/-- EncodeOfDecodeIsTheStream, StepRunsTheDecodedInstruction, FetchedTableWordRuns. -/
theorem witness_decoded : decode [0x01, 0xA1, 0x02] = .ok (.rbPush 0xA1, [0x02]) ∧
    decodeTableWord 8 0xB = some .msEmit ∧ decode [0x12] = .error (.unknownLabel 0x12) ∧
    0x11 < (0x12 : Byte).toNat := by decide

/-- ResetMeetsTheInvariant, WireIsAPrefixOfThePushes, WireIsWholeRecordsInGrantOrder: the least and the
largest capacity are legal. -/
theorem witness_params : (withK 1).wf = true ∧ (withK 16).wf = true ∧ (withK 17).wf = false := by decide

/-- InitResetsTheBlock (both phases), NothingRunsBeforeInit, SecondInitIsRefused. -/
theorem witness_phase : State.reset.cfg.wf = true ∧ State.reset.phase ≠ .running ∧
    ({ State.reset with phase := .beforeInit } : State).phase = .beforeInit ∧
    Instr.rbPull ≠ .init ∧ held.phase = .running := by decide

/-- StepKeepsTheInvariant, StepKeepsFifoOrder, StepKeepsRecordsWhole, FramerControlFlow,
OverLengthFlagIsStickyAndUnread, OnlyTheOwnerWritesAField, IndexAdvancesByOneModuloCap,
QueuedBytesKeepTheTransmitterActive: a step from a legal state that is no `INIT` and no push by itself. -/
theorem witness_step : ∃ t, StateInv held ∧ step { held with feed := [0x0B] } = .next t ∧
    exec .msEmit held = .next t ∧ Instr.msEmit ≠ .init ∧ (∀ b, Instr.msEmit ≠ .rbPush b) ∧
    (held.head ≠ held.tail → held.txActive = true) :=
  ⟨_, held_legal, rfl, rfl, nofun, nofun, by decide⟩

/-- CountDecidesEmptyAndFull at the wrap, and its two ends. -/
theorem witness_count : held.cfg.wf = true ∧ held.head.toNat < capOf held.cfg ∧
    held.tail.toNat < capOf held.cfg ∧ isFull held = true ∧ isEmpty finished = true := by decide

/-- PushStoresOrHolds, both clauses. -/
theorem witness_push : held.phase ≠ .beforeInit ∧ isLocked held = true ∧
    isLocked finished = true ∧ isFull held = true ∧ isFull finished = false ∧
    finished.head.toNat < capOf finished.cfg := by decide

/-- AccessOutsideTheSlotsFaults at the first address outside, its three clauses. -/
theorem witness_outside : ∃ hdr pay ovf, held.phase ≠ .beforeInit ∧ isLocked held = true ∧
    isFull { held with head := 2 } = false ∧ 2 ^ held.cfg.k ≤ (2 : Half).toNat ∧
    held.lockOwner = some 1 ∧ held.req[1]? = some (Req.pending hdr pay ovf) ∧
    held.pos < 12 + pay.length ∧ isEmpty { held with tail := 2 } = false :=
  ⟨_, _, _, by decide, by decide, by decide, by decide, rfl, rfl, by decide, by decide⟩

/-- OnlyAPullLiftsAHold: a pull from a full buffer. -/
theorem witness_lift : ∃ t, exec .rbPull held = .next t ∧ isFull held = true ∧ isFull t = false :=
  ⟨_, rfl, by decide, by decide⟩

/-- PullTakesTheOldestOrStops, both clauses. -/
theorem witness_pull : isEmpty held = false ∧ held.tail.toNat < capOf held.cfg ∧
    isEmpty finished = true ∧ finished.phase ≠ .beforeInit := by decide

/-- `held` with its byte pulled: an empty buffer at the wrap, the lock held, the record in mid-way. -/
def drained : State := { held with tail := 1, wire := [0x0A] }

theorem drained_legal : StateInv drained where
  params := by decide
  started := by decide
  headSlot := by decide
  tailSlot := by decide
  storageForm := by decide
  storageSlots := by decide
  queuedWritten := by decide
  drain := by decide
  ports := by decide
  owner := held_legal.owner
  staged := held_legal.staged
  tailAt := by decide

/-- NoFaultFromLegalStates, FullAndEmptyAreReportedExactly: a legal state with the lock held.
PullReturnsOnlyPushedBytes, BytesGoToTheirSlots: a pull that answers a byte. -/
theorem witness_pulled : ∃ t, StateInv held ∧ isLocked held = true ∧ exec .rbPull held = .next t ∧
    t.answer = .pulled (some 0x0A) := ⟨_, held_legal, by decide, rfl, by decide⟩

/-- BytesGoToTheirSlots: a push and an EMIT that are DONE, in the last slot. -/
theorem witness_stored : ∃ t u, StateInv drained ∧ exec (.rbPush 0x55) drained = .next t ∧
    t.answer = .done ∧ exec .msEmit drained = .next u ∧ u.answer = .done :=
  ⟨_, _, drained_legal, rfl, by decide, rfl, by decide⟩

/-- OnePullLetsAHeldPushIn: an EMIT that holds. -/
theorem witness_hold : ∃ t, StateInv held ∧ exec .msEmit held = .next t ∧ t.answer = .hold :=
  ⟨_, held_legal, rfl, rfl⟩

/-- KickIsIdempotent, TimestampMultiplexer (its three branches, the floor among them), HeaderEncoder. -/
theorem witness_tsmux : State.reset.phase ≠ .beforeInit ∧
    State.reset.cfg.tsFloorSec.toNat ≤ (1451606400 : Long).toNat ∧
    (1451606399 : Long).toNat < State.reset.cfg.tsFloorSec.toNat ∧ timeE2.wallOk = false := by decide

/-- IndexPayloadHasTheWirePattern, and the parts of IndexRegistrationIsAccepted: a name without 0x00, one
with it, an idle port, a busy port. -/
theorem witness_index : Params.default.nameW = 8 ∧ 1 ≤ held.cfg.nameW ∧
    (∀ b ∈ ([0x61] : List Byte), b ≠ 0x00) ∧ (∃ b ∈ ([0x61, 0x00] : List Byte), b = 0x00) ∧
    held.req[0]? = some Req.idle := by decide

/-- SendIsAccepted, FragmentedSendIsAccepted, MissingPortsAreRefused, PendingRequestsAreStable: an idle
port, a busy port, the first port that does not exist. -/
theorem witness_ports : held.phase ≠ .beforeInit ∧ held.req[0]? = some Req.idle ∧
    (∃ hdr pay ovf, held.req[1]? = some (Req.pending hdr pay ovf)) ∧ held.req.length ≤ 2 :=
  ⟨by decide, rfl, ⟨_, _, _, rfl⟩, by decide⟩

/-- AcquireGrantsAFreeLock: a waiting producer under a free lock, and a port that exists under a held
one. -/
theorem witness_acquire : ∃ hdr pay ovf, ({ held with lockOwner := none } : State).lockOwner = none ∧
    ({ held with lockOwner := none } : State).req[1]? = some (Req.pending hdr pay ovf) ∧
    1 < held.req.length ∧ held.lockOwner ≠ none :=
  ⟨_, _, _, rfl, rfl, by decide, by decide⟩

/-- EmitPushesTheNextByte and ReleaseCompletesTheRequest: in mid-record, at the record's end, and with the
lock free. -/
theorem witness_record : ∃ hdr pay ovf, held.lockOwner = some 1 ∧
    held.req[1]? = some (Req.pending hdr pay ovf) ∧ held.pos < 12 + pay.length ∧
    held.pos ≠ 12 + pay.length ∧ finished.req[1]? = some (Req.pending hdr pay ovf) ∧
    finished.pos = 12 + pay.length ∧ isFull finished = false ∧ State.reset.lockOwner = none :=
  ⟨_, _, _, rfl, rfl, by decide, by decide, rfl, by decide, by decide, rfl⟩

/-- NameFieldIsNullTerminated: a width of one byte, a name of exactly the width, a shorter one, and two
names that agree before the last byte of the field. -/
theorem witness_name : 1 ≤ 1 ∧ 8 ≤ ([0x31, 0x32, 0x33, 0x34, 0x35, 0x36, 0x37, 0x38] : List Byte).length ∧
    ([] : List Byte).length < 1 ∧ ([0x61, 0x62] : List Byte).take 1 = ([0x61, 0x63] : List Byte).take 1 := by
  decide

/-- OverLengthFlagIsStickyAndUnread: the flag set before a step, and the first length that sets it. -/
theorem witness_overlength : ∃ t, exec .msEmit { held with fOverlen := true } = .next t ∧
    isOverLength 65527 = true := ⟨_, rfl, by decide⟩

/-- QuiescentStatesAreQuiet: the state after reset is quiescent, and a release is a step its agents may
try. -/
theorem witness_quiescent : Quiescent State.reset ∧ isAgentStep .msRelease = true ∧
    pullAllowed .msRelease State.reset ∧ ∃ t, exec .msRelease State.reset = .next t := by
  refine ⟨⟨?_, by decide, by decide, by decide⟩, by decide, nofun, _, rfl⟩
  intro p r h
  exact List.eq_of_mem_replicate (List.mem_of_getElem? h)

/-- WireIsWholeRecordsInGrantOrder, WireIsAPrefixOfThePushes: a run of agents' steps that pulls a byte of a
granted record. -/
theorem witness_run : (∀ i ∈ sendP2.tail ++ [.msEmit, .rbPull], isAgentStep i = true ∧ i ≠ .init) ∧
    (reached (sendP2.tail ++ [.msEmit, .rbPull]) (State.resetOf (withK 2))).map State.wire =
      some [0x0B] := by decide

/-- GrantedRequestsCanComplete: `held` is legal, and its lock is held by a port with a request. -/
theorem witness_granted : ∃ hdr pay ovf, StateInv held ∧ held.lockOwner = some 1 ∧
    held.req[1]? = some (Req.pending hdr pay ovf) := ⟨_, _, _, held_legal, rfl, rfl⟩

/-- FramerControlFlow: a grant from a free lock, an EMIT that is DONE, an EMIT that holds, a release. -/
theorem witness_framer : ∃ t u v w, exec (.msAcquire 1) { held with lockOwner := none } = .next t ∧
    exec .msEmit drained = .next u ∧ u.answer = .done ∧ exec .msEmit held = .next v ∧
    v.answer = .hold ∧ exec .msRelease finished = .next w ∧ w.answer = .completed 1 0 :=
  ⟨_, _, _, _, rfl, rfl, by decide, rfl, by decide, rfl, by decide⟩

/-- AcceptanceCommutesWithADrain: each of the three requests accepted, then a pull. -/
theorem witness_commute :
    (∃ u v, exec (.msSend 0 2 [0xAA] timeE2) held = .next u ∧ exec .rbPull u = .next v) ∧
    (∃ u v, exec (.msSendFrag 0 2 [[0xAA], []] timeE2) held = .next u ∧ exec .rbPull u = .next v) ∧
    (∃ u v, exec (.ixRegisterIndex 0 0 #v[0, 0, 0, 0, 0, 0] [0x61] timeE2) held = .next u ∧
      exec .rbPull u = .next v) ∧
    roleOf (.msSend 0 2 [0xAA] timeE2) = .producer 0 :=
  ⟨⟨_, _, rfl, rfl⟩, ⟨_, _, rfl, rfl⟩, ⟨_, _, rfl, rfl⟩, rfl⟩

/-- PushWithoutTheLockIsRefused. -/
theorem witness_lock_free : State.reset.phase ≠ .beforeInit ∧ State.reset.lockOwner = none := by
  decide

/-- ViewsShowTheState: an owner at the top of the field. -/
theorem witness_views : ({ held with lockOwner := some 65535 } : State).lockOwner = some 65535 ∧
    65535 < 65536 ∧ statView { held with lockOwner := some 65535 } = 0xFFFF000E := by decide

end Sys2Proof.Tests
end

section
/-! SUPPORT. The writers of each piece of state (10_state.md section 7), read off `Effect`: one lemma per
clause of the table. In each, the named cases are the effects that write the field; every other effect
leaves it equal by definition. -/

namespace Sys2Proof.Machine

open Sys2Proof

variable {i : Instr} {s t : State}

/-- R4: the parameters are fixed before reset. -/
theorem Effect.cfg_eq (he : Effect s i t) : t.cfg = s.cfg := by
  cases he <;> rfl

/-- Log entry 2: only `step` takes labels off the feed. -/
theorem Effect.feed_eq (he : Effect s i t) : t.feed = s.feed := by
  cases he <;> rfl

/-- R27: `head` and `storage` belong to the pushing side. -/
theorem Effect.writer_of_head_or_storage (he : Effect s i t) (hi : i ≠ .init)
    (h : t.head ≠ s.head ∨ t.storage ≠ s.storage) : (∃ b, i = .rbPush b) ∨ i = .msEmit := by
  cases he with
  | initDone => exact absurd rfl hi
  | pushDone => exact .inl ⟨_, rfl⟩
  | emitDone => exact .inr rfl
  | _ => exact h.elim (absurd rfl) (absurd rfl)

/-- R27, R22: `tail` and `wire` belong to the pulling side. -/
theorem Effect.writer_of_tail_or_wire (he : Effect s i t) (hi : i ≠ .init)
    (h : t.tail ≠ s.tail ∨ t.wire ≠ s.wire) : i = .rbPull := by
  cases he with
  | initDone => exact absurd rfl hi
  | pullSome => rfl
  | _ => exact h.elim (absurd rfl) (absurd rfl)

/-- R15: a push, done or held, and a kick set `tx_active`. -/
theorem Effect.setter_of_txActive (he : Effect s i t) (hi : i ≠ .init)
    (h0 : s.txActive = false) (h1 : t.txActive = true) :
    (∃ b, i = .rbPush b) ∨ i = .rbKick ∨ i = .msEmit := by
  cases he with
  | initDone => exact absurd rfl hi
  | pushDone | pushHold => exact .inl ⟨_, rfl⟩
  | kicked => exact .inr (.inl rfl)
  | emitDone | emitHold => exact .inr (.inr rfl)
  | pullNone => cases h1
  | _ => cases h0.symm.trans h1

/-- R15: only a pull that finds nothing clears `tx_active`. -/
theorem Effect.clearer_of_txActive (he : Effect s i t) (hi : i ≠ .init)
    (h1 : s.txActive = true) (h0 : t.txActive = false) : i = .rbPull ∧ isEmpty s = true := by
  cases he with
  | initDone => exact absurd rfl hi
  | pullNone hempty => exact ⟨rfl, hempty⟩
  | pushDone | pushHold | kicked | emitDone | emitHold => cases h0
  | _ => cases h1.symm.trans h0

/-- R16: the lock changes by a grant and by a release. -/
theorem Effect.writer_of_lockOwner (he : Effect s i t) (hi : i ≠ .init)
    (h : t.lockOwner ≠ s.lockOwner) : (∃ p, i = .msAcquire p) ∨ i = .msRelease := by
  cases he with
  | initDone => exact absurd rfl hi
  | granted => exact .inl ⟨_, rfl⟩
  | released => exact .inr rfl
  | _ => exact absurd rfl h

/-- R18: a grant starts `pos` at 0 and an EMIT that is DONE advances it. -/
theorem Effect.writer_of_pos (he : Effect s i t) (hi : i ≠ .init) (h : t.pos ≠ s.pos) :
    (∃ p, i = .msAcquire p) ∨ i = .msEmit := by
  cases he with
  | initDone => exact absurd rfl hi
  | granted => exact .inl ⟨_, rfl⟩
  | emitDone => exact .inr rfl
  | _ => exact absurd rfl h

/-- R17: an acceptance stages a request and a release ends it. -/
theorem Effect.writer_of_req (he : Effect s i t) (hi : i ≠ .init) (h : t.req ≠ s.req) :
    (∃ p, roleOf i = .producer p) ∨ i = .msRelease := by
  cases he with
  | initDone => exact absurd rfl hi
  | accepted hrole => exact .inl ⟨_, hrole⟩
  | released => exact .inr rfl
  | _ => exact absurd rfl h

/-- R19: only an acceptance writes `F_OVERLEN`. -/
theorem Effect.writer_of_fOverlen (he : Effect s i t) (hi : i ≠ .init)
    (h : t.fOverlen ≠ s.fOverlen) : ∃ p, roleOf i = .producer p := by
  cases he with
  | initDone => exact absurd rfl hi
  | accepted hrole => exact ⟨_, hrole⟩
  | _ => exact absurd rfl h

end Sys2Proof.Machine

open Sys2Proof Sys2Proof.Machine

/-- Settles O16: the writer table of 10_state.md section 7, clause by clause from what a step can do. -/
theorem onlyTheOwnerWritesAField : Obligations.OnlyTheOwnerWritesAField := by
  intro i s t h
  have he : Effect s i t := exec_effect h
  exact ⟨he.cfg_eq, he.feed_eq, fun hi =>
    ⟨he.writer_of_head_or_storage hi, he.writer_of_tail_or_wire hi,
      he.setter_of_txActive hi, he.clearer_of_txActive hi, he.writer_of_lockOwner hi,
      he.writer_of_pos hi, he.writer_of_req hi, he.writer_of_fOverlen hi⟩⟩
end

section
/-! SUPPORT. The flags EMPTY and FULL read off the counter COUNT (R12 to R14). -/

namespace Sys2Proof.Machine

open Sys2Proof

variable {s : State}

/-- R12, R14: the distance from `tail` to `head` is 0 exactly where they are equal. -/
theorem isEmpty_iff_countOf (h : s.cfg.wf = true) (hh : s.head.toNat < capOf s.cfg)
    (ht : s.tail.toNat < capOf s.cfg) : isEmpty s = true ↔ (countOf s).toNat = 0 := by
  rw [isEmpty_eq_true_iff, ← BitVec.toNat_inj, toNat_countOf_cases h hh ht]
  split <;> omega

/-- R13, R14: `tail` is the slot after `head` exactly where the distance is the largest there is. -/
theorem isFull_iff_countOf (h : s.cfg.wf = true) (hh : s.head.toNat < capOf s.cfg)
    (ht : s.tail.toNat < capOf s.cfg) :
    isFull s = true ↔ (countOf s).toNat = capOf s.cfg - 1 := by
  rw [isFull_iff_toNat h, toNat_countOf_cases h hh ht]
  rcases Nat.lt_or_ge (s.head.toNat + 1) (capOf s.cfg) with hlt | hge
  · rw [Nat.mod_eq_of_lt hlt]
    split <;> omega
  · have hwrap : s.head.toNat + 1 = capOf s.cfg := by omega
    rw [hwrap, Nat.mod_self]
    split <;> omega

end Sys2Proof.Machine

open Sys2Proof Sys2Proof.Machine

/-- Settles O18: both flags by their counts; a full buffer is not empty since it has two slots or
more. -/
theorem countDecidesEmptyAndFull : Obligations.CountDecidesEmptyAndFull := by
  intro s h hh ht
  have hnot : ¬ (isEmpty s = true ∧ isFull s = true) := by
    rintro ⟨hempty, hfull⟩
    cases hempty.symm.trans (isEmpty_of_isFull h hh hfull)
  exact ⟨isEmpty_iff_countOf h hh ht, isFull_iff_countOf h hh ht, countOf_lt h, hnot,
    length_queued s⟩
end

section
/-! SUPPORT. The fields of the view STAT (R24). -/

namespace Sys2Proof.Machine

open Sys2Proof

/-- STAT as its five flags set below OWNER and the reserved bits, one at a time. -/
theorem statView_eq_concat (s : State) :
    statView s = (((((ownerField s ++ (0 : BitVec 11)).concat s.fOverlen).concat (isLocked s)).concat
      s.txActive).concat (isFull s)).concat (isEmpty s) := rfl

/-- R24: the one-bit flags of STAT, bits 0 to 4. -/
theorem statView_flags (s : State) :
    (statView s).getLsbD 0 = isEmpty s ∧ (statView s).getLsbD 1 = isFull s ∧
    (statView s).getLsbD 2 = s.txActive ∧ (statView s).getLsbD 3 = isLocked s ∧
    (statView s).getLsbD 4 = s.fOverlen := by
  simp only [statView_eq_concat, BitVec.getLsbD_concat]
  simp

/-- R24: above its flags STAT is OWNER over eleven reserved zeros. -/
theorem statView_getLsbD_add_five (s : State) (n : Nat) :
    (statView s).getLsbD (n + 5) = (ownerField s ++ (0 : BitVec 11)).getLsbD n := by
  simp only [statView_eq_concat, BitVec.getLsbD_concat_succ]

/-- R24: bits 15:5 of STAT are reserved and read as 0. -/
theorem statView_reserved (s : State) : (statView s).extractLsb' 5 11 = 0 := by
  ext j hj
  rw [BitVec.getElem_extractLsb', Nat.add_comm, statView_getLsbD_add_five, BitVec.getLsbD_append,
    if_pos hj, BitVec.getLsbD_eq_getElem hj]

/-- R24: bits 31:16 of STAT are OWNER. -/
theorem statView_owner (s : State) : (statView s).extractLsb' 16 16 = ownerField s := by
  ext j hj
  rw [BitVec.getElem_extractLsb', show 16 + j = 11 + j + 5 by omega, statView_getLsbD_add_five,
    BitVec.getLsbD_append, if_neg (by omega), Nat.add_sub_cancel_left, BitVec.getLsbD_eq_getElem hj]

/-- R24: OWNER is 0 while the lock is free. -/
theorem ownerField_of_free {s : State} (hl : s.lockOwner = none) : ownerField s = 0 := by
  simp [ownerField, hl]

/-- R24: OWNER is the owner's port number, which has 16 bits. -/
theorem ownerField_of_owner {s : State} {p : Nat} (hl : s.lockOwner = some p) (hp : p < 65536) :
    (ownerField s).toNat = p := by
  simp [ownerField, hl]; omega

end Sys2Proof.Machine

open Sys2Proof Sys2Proof.Machine

/-- Settles O51: STAT field by field from the concatenation that defines it; HEAD and TAIL are the
registers. -/
theorem viewsShowTheState : Obligations.ViewsShowTheState := by
  refine ⟨by decide, fun s => ?_⟩
  obtain ⟨hempty, hfull, htx, hlocked, hover⟩ := statView_flags s
  exact ⟨hempty, hfull, htx, hlocked, hover, statView_reserved s, statView_owner s,
    ownerField_of_free, fun _ => ownerField_of_owner, rfl, rfl⟩
end

section
/-! SUPPORT. One step, by what the feed decodes to (log entry 2). -/

namespace Sys2Proof.Machine

open Sys2Proof

variable {s t : State}

theorem step_of_empty (hfeed : s.feed = []) : step s = .next s := by
  simp [step, hfeed]

/-- A feed that decodes is not empty, so the step reaches the decoder. -/
theorem step_of_decode_ok {i : Instr} {rest : List Byte} (hd : decode s.feed = .ok (i, rest)) :
    step s = exec i { s with feed := rest } := by
  unfold step
  cases hfeed : s.feed with
  | nil => rw [hfeed] at hd; cases hd
  | cons b bs => rw [hfeed] at hd; simp only [hd]

theorem step_of_decode_error {e : DecodeError} (hne : s.feed ≠ [])
    (hd : decode s.feed = .error e) : step s = .refused (.undecodable e) := by
  unfold step
  cases hfeed : s.feed with
  | nil => exact absurd hfeed hne
  | cons b bs => rw [hfeed] at hd; simp only [hd]

/-- A step that answers a next state did nothing, or took a label off the feed and had its effect. -/
theorem step_cases (h : step s = .next t) :
    t = s ∨ ∃ (i : Instr) (rest : List Byte), Effect { s with feed := rest } i t := by
  by_cases hfeed : s.feed = []
  · rw [step_of_empty hfeed] at h; cases h; exact .inl rfl
  · cases hd : decode s.feed with
    | ok r => exact .inr ⟨r.1, r.2, exec_effect (step_of_decode_ok hd ▸ h)⟩
    | error e => rw [step_of_decode_error hfeed hd] at h; cases h

end Sys2Proof.Machine

open Sys2Proof Sys2Proof.Machine

/-- Settles O5: the three cases of the feed. -/
theorem stepRunsTheDecodedInstruction : Obligations.StepRunsTheDecodedInstruction :=
  ⟨fun _ _ _ => step_of_decode_ok, fun _ => step_of_empty, fun _ _ => step_of_decode_error⟩
end

section
/-! SUPPORT. How each change of state that a step can make keeps the invariant `StateInv`. A change of one
field is proved on its own; a step's effect is one of these changes, or two of them, under `reply`. -/

namespace Sys2Proof.Machine

open Sys2Proof

variable {i : Instr} {s t : State}

/-! ### Reset and the model's own fields -/

/-- R29: after reset the ring is empty, the lock is free and every port is idle. -/
theorem stateInv_resetOf {c : Params} (hc : c.wf = true) : StateInv (State.resetOf c) where
  params := hc
  started := nofun
  headSlot := capOf_pos c
  tailSlot := capOf_pos c
  storageForm := Memory.wf_nil
  storageSlots := nofun
  queuedWritten := by
    intro j hj
    rw [(isEmpty_iff_countOf (s := State.resetOf c) hc (capOf_pos c) (capOf_pos c)).1 rfl] at hj
    exact absurd hj (Nat.not_lt_zero j)
  drain := fun hne => absurd rfl hne
  ports := List.length_replicate
  owner := nofun
  staged := by
    intro p hdr pay ovf hreq
    cases List.eq_of_mem_replicate (List.mem_of_getElem? hreq)
  tailAt := (Nat.zero_mod _).symm

/-- `INIT` leaves the reset state but for the model's own fields. -/
theorem StateInv.initDone (hs : StateInv s) : StateInv (initialised s) :=
  { stateInv_resetOf hs.params with started := hs.started }

theorem StateInv.replied (hs : StateInv s) (a : Answer) : StateInv (reply s a) :=
  { hs with started := nofun }

/-- The invariant does not speak of the labels still to be taken (log entry 2). -/
theorem StateInv.withFeed (hs : StateInv s) (rest : List Byte) : StateInv { s with feed := rest } :=
  { hs with }

/-! ### The ring buffer -/

theorem StateInv.kicked (hs : StateInv s) : StateInv (kick s) :=
  { hs with drain := fun _ => rfl }

/-- R73: the transmitter stops only when nothing is queued. -/
theorem StateInv.stopped (hs : StateInv s) (he : isEmpty s = true) :
    StateInv { s with txActive := false } :=
  { hs with drain := fun hne => absurd ((isEmpty_eq_true_iff s).1 he) hne }

/-- A write never takes a slot off the list. -/
theorem Memory.isSome_find_put {m : List Host.Cell} {x : Nat} (a : Nat) (v : Byte)
    (h : (Memory.find m x).isSome = true) : (Memory.find (Memory.put m a v) x).isSome = true := by
  by_cases hx : x = a
  · rw [hx, Memory.find_put_self]; rfl
  · rwa [Memory.find_put_of_ne m v hx]

/-- A push lists the slot `head`, which is the one that joins the queue. -/
theorem StateInv.queuedWritten_pushed (hs : StateInv s) (hf : isFull s = false) (b : Byte) :
    ∀ j < (countOf (pushedState b s)).toNat,
      (Memory.find (pushedState b s).storage ((s.tail.toNat + j) % capOf s.cfg)).isSome = true := by
  intro j hj
  rw [countOf_pushed hs.params hs.headSlot hs.tailSlot hf] at hj
  rcases Nat.lt_succ_iff_lt_or_eq.1 hj with hold | rfl
  · exact Memory.isSome_find_put _ b (hs.queuedWritten j hold)
  · rw [← head_eq_tail_add_count hs.params hs.headSlot hs.tailSlot]
    exact Option.isSome_of_eq_some (Memory.find_put_self _ _ b)

/-- R72: a push that is DONE. -/
theorem StateInv.pushed (hs : StateInv s) (hf : isFull s = false) (b : Byte) :
    StateInv (pushedState b s) :=
  { hs with
    headSlot := toNat_incWrap_lt hs.params _
    storageForm := Memory.put_wf _ _ _ hs.storageForm
    storageSlots := by
      intro c hc
      rcases Memory.mem_put _ _ _ _ hc with rfl | hc
      · exact hs.headSlot
      · exact hs.storageSlots c hc
    queuedWritten := hs.queuedWritten_pushed hf b
    drain := fun _ => rfl }

/-- After a pull the queue begins one slot further, so what was at offset `j + 1` is at offset `j`. -/
theorem StateInv.queuedWritten_pulled (hs : StateInv s) (he : isEmpty s = false) :
    ∀ j < (countOf (pulledState s)).toNat,
      (Memory.find s.storage (((pulledState s).tail.toNat + j) % capOf s.cfg)).isSome = true := by
  intro j hj
  have htail : (pulledState s).tail.toNat = (s.tail.toNat + 1) % capOf s.cfg :=
    toNat_incWrap hs.params _
  rw [htail, Nat.mod_add_mod, Nat.add_assoc, Nat.add_comm 1 j]
  apply hs.queuedWritten
  rw [countOf_pulled hs.params hs.headSlot hs.tailSlot he]
  exact Nat.succ_lt_succ hj

/-- R73: a pull that returns a byte. -/
theorem StateInv.pulled (hs : StateInv s) (he : isEmpty s = false) : StateInv (pulledState s) :=
  { hs with
    tailSlot := toNat_incWrap_lt hs.params _
    queuedWritten := hs.queuedWritten_pulled he
    drain := fun _ => hs.drain fun heq => by simp [(isEmpty_eq_true_iff s).2 heq] at he
    tailAt := by
      change (incWrap s.cfg s.tail).toNat = (s.wire ++ [_]).length % capOf s.cfg
      rw [toNat_incWrap hs.params, hs.tailAt, Nat.mod_add_mod, List.length_append,
        List.length_singleton] }

/-! ### The session -/

/-- What a port holds after port `p` is set is the new request or what the port held before. -/
theorem eq_or_getElem?_of_set {reqs : List Req} {p q : Nat} {r r' : Req}
    (h : (reqs.set p r)[q]? = some r') : r' = r ∨ reqs[q]? = some r' := by
  rcases eq_or_ne p q with rfl | hne
  · rw [List.getElem?_set_self'] at h
    cases hp : reqs[p]? <;> simp [hp] at h
    exact .inl h.symm
  · exact .inr ((List.getElem?_set_ne hne).symm.trans h)

/-- R114: a grant goes to a port with a pending request and starts its record at byte 0. -/
theorem StateInv.granted (hs : StateInv s) {p : Nat} {hdr : Vector Byte 12} {pay : List Byte}
    {ovf : Bool} (hr : s.req[p]? = some (.pending hdr pay ovf)) :
    StateInv { s with lockOwner := some p, pos := 0 } :=
  { hs with owner := by rintro q ⟨⟩; exact ⟨hdr, pay, ovf, hr, Nat.zero_le _⟩ }

/-- R116: `pos` advances only while a byte of the owner's record is left. -/
theorem StateInv.advanced (hs : StateInv s) {p : Nat} {hdr : Vector Byte 12} {pay : List Byte}
    {ovf : Bool} (hl : s.lockOwner = some p) (hr : s.req[p]? = some (.pending hdr pay ovf))
    (hpos : s.pos < 12 + pay.length) : StateInv { s with pos := s.pos + 1 } :=
  { hs with
    owner := by
      intro q hq
      cases hl.symm.trans hq
      exact ⟨hdr, pay, ovf, hr, hpos⟩ }

/-- R117: the release ends the owner's request and frees the lock. -/
theorem StateInv.released (hs : StateInv s) (p : Nat) :
    StateInv { s with req := s.req.set p .idle, lockOwner := none } :=
  { hs with
    ports := List.length_set.trans hs.ports
    owner := nofun
    staged := by
      intro q hdr pay ovf hq
      rcases eq_or_getElem?_of_set hq with hnew | hold
      · cases hnew
      · exact hs.staged q hdr pay ovf hold }

/-- R112: the staged header is encoded from the payload it stands before, and the lock owner's port is
another one, since its request is pending. -/
theorem StateInv.accepted (hs : StateInv s) {p : Nat} (opcode : Half) (payload : List Byte)
    (time : TimeAnswer) (hr : s.req[p]? = some .idle) :
    StateInv (acceptedState p opcode payload time s) :=
  { hs with
    ports := List.length_set.trans hs.ports
    owner := by
      intro q hq
      obtain ⟨hdr, pay, ovf, hreq, hpos⟩ := hs.owner q hq
      have hne : p ≠ q := by rintro rfl; cases hr.symm.trans hreq
      exact ⟨hdr, pay, ovf, (List.getElem?_set_ne hne).trans hreq, hpos⟩
    staged := by
      intro q hdr pay ovf hq
      rcases eq_or_getElem?_of_set hq with hnew | hold
      · cases hnew
        exact ⟨rfl, fun hlong => by simp [acceptedState, hlong], opcode, _, rfl⟩
      · obtain ⟨hovf, hflag, hhdr⟩ := hs.staged q hdr pay ovf hold
        exact ⟨hovf, fun hlong => by simp [acceptedState, hflag hlong], hhdr⟩ }

/-! ### Every step -/

/-- The invariant is kept by whatever a step can do. -/
theorem StateInv.effect (hs : StateInv s) (he : Effect s i t) : StateInv t := by
  cases he with
  | disabled | micros | header => exact hs.replied _
  | initDone => exact hs.initDone.replied _
  | pushDone _ hf => exact (hs.pushed hf _).replied _
  | pushHold | kicked | emitHold => exact hs.kicked.replied _
  | pullNone he => exact (hs.stopped he).replied _
  | pullSome he => exact (hs.pulled he).replied _
  | granted _ hr => exact (hs.granted hr).replied _
  | released => exact (hs.released _).replied _
  | emitDone hl hr hb hf =>
    have hpos := (List.getElem?_eq_some_iff.1 hb).1
    rw [length_recordOf] at hpos
    exact ((hs.pushed hf _).advanced hl hr hpos).replied _
  | accepted _ hr => exact (hs.accepted _ _ _ hr).replied _

end Sys2Proof.Machine

open Sys2Proof Sys2Proof.Machine

/-- Settles O7: the state of R29 meets each clause, and R4's defaults are legal. -/
theorem resetMeetsTheInvariant : Obligations.ResetMeetsTheInvariant :=
  ⟨fun _ => stateInv_resetOf, stateInv_resetOf (by decide)⟩

/-- Settles O13: a step does nothing, or has one of the effects, each of which keeps the invariant. -/
theorem stepKeepsTheInvariant : Obligations.StepKeepsTheInvariant := by
  intro s t hs h
  rcases step_cases h with rfl | ⟨i, rest, he⟩
  · exact hs
  · exact (hs.withFeed rest).effect he
end

section
/-! SUPPORT. The slots of `storage` that a push and a pull go to (R37): a push writes slot `head` and adds
one byte to those pushed; an index that holds no slot number stops the access (log entry 9). -/

namespace Sys2Proof.Machine

open Sys2Proof

variable {s : State}

/-! ### From a legal state -/

/-- R77: the bytes pushed since reset grow by the byte pushed. -/
theorem StateInv.emitted_pushed (hs : StateInv s) (hf : isFull s = false) (b : Byte) :
    emitted (pushedState b s) = emitted s ++ [b] := by
  have hq := queued_pushed hs.params hs.headSlot hs.tailSlot hf b
  change s.wire ++ queued (pushedState b s) = s.wire ++ queued s ++ [b]
  rw [hq, List.append_assoc]

/-- R37: what a push of `b` leaves, `n` being the number of bytes pushed before it. -/
theorem StateInv.pushed_slot (hs : StateInv s) (hf : isFull s = false) (b : Byte) :
    Memory.find (pushedState b s).storage ((emitted s).length % 2 ^ s.cfg.k) = some b ∧
    (∀ a, a ≠ (emitted s).length % 2 ^ s.cfg.k →
      Memory.get (pushedState b s).storage a = Memory.get s.storage a) ∧
    (emitted (pushedState b s)).length = (emitted s).length + 1 := by
  have hslot : (emitted s).length % 2 ^ s.cfg.k = s.head.toNat := hs.head_eq.symm
  rw [hslot, hs.emitted_pushed hf b, List.length_append, List.length_singleton]
  exact ⟨Memory.find_put_self _ _ b, fun _ hne => Memory.get_put_of_ne _ b hne, rfl⟩

/-- R37: what a pull leaves, `m` being the number of bytes pulled before it. -/
theorem StateInv.pulled_slot (hs : StateInv s) :
    Memory.get s.storage s.tail.toNat = Memory.get s.storage (s.wire.length % 2 ^ s.cfg.k) ∧
    (pulledState s).storage = s.storage ∧ (pulledState s).wire.length = s.wire.length + 1 :=
  ⟨congrArg (Memory.get s.storage) hs.tailAt, rfl, List.length_append⟩

/-! ### Through an index that holds no slot number -/

theorem pushAttempt_of_not_slot (b : Byte) (hf : isFull s = false) (hh : capOf s.cfg ≤ s.head.toNat) :
    pushAttempt b s = .noSlot := by
  rcases pushAttempt_cases b s with ⟨hfull, -⟩ | ⟨-, -, hno⟩ | ⟨-, hlt, -⟩
  · cases hf.symm.trans hfull
  · exact hno
  · exact absurd hlt (Nat.not_lt.2 hh)

theorem pullOne_of_not_slot (he : isEmpty s = false) (ht : capOf s.cfg ≤ s.tail.toNat) :
    pullOne s = none := by
  rcases pullOne_cases s with ⟨hempty, -⟩ | ⟨-, -, hno⟩ | ⟨-, hlt, -⟩
  · cases he.symm.trans hempty
  · exact hno
  · exact absurd hlt (Nat.not_lt.2 ht)

theorem execRbPush_of_not_slot (b : Byte) (hp : s.phase ≠ .beforeInit) (hl : isLocked s = true)
    (hf : isFull s = false) (hh : capOf s.cfg ≤ s.head.toNat) :
    execRbPush b s = .fault .noSuchSlot :=
  afterInit_eq_fault.2 ⟨hp, by rw [if_pos hl, pushAttempt_of_not_slot b hf hh]⟩

theorem execMsEmit_of_not_slot {b : Byte} (hp : s.phase ≠ .beforeInit) (hb : nextByte s = some b)
    (hf : isFull s = false) (hh : capOf s.cfg ≤ s.head.toNat) :
    execMsEmit s = .fault .noSuchSlot :=
  afterInit_eq_fault.2 ⟨hp, by simp only [hb, pushAttempt_of_not_slot b hf hh]⟩

theorem execRbPull_of_not_slot (hp : s.phase ≠ .beforeInit) (he : isEmpty s = false)
    (ht : capOf s.cfg ≤ s.tail.toNat) : execRbPull s = .fault .noSuchSlot :=
  afterInit_eq_fault.2 ⟨hp, by rw [pullOne_of_not_slot he ht]⟩

/-- R116: short of the record's end there is a byte to push. -/
theorem exists_nextByte {p : Nat} {hdr : Vector Byte 12} {pay : List Byte} {ovf : Bool}
    (hl : s.lockOwner = some p) (hr : s.req[p]? = some (.pending hdr pay ovf))
    (hpos : s.pos < 12 + pay.length) : ∃ b, nextByte s = some b := by
  rw [← length_recordOf hdr pay] at hpos
  exact ⟨_, nextByte_of_owner hl hr (List.getElem?_eq_getElem hpos)⟩

end Sys2Proof.Machine

open Sys2Proof Sys2Proof.Machine

/-- Settles O28: in a legal state `head` and `tail` are the numbers of bytes pushed and pulled, modulo
CAP, so an operation that is DONE wrote, or read, the slot named. -/
theorem bytesGoToTheirSlots : Obligations.BytesGoToTheirSlots := by
  intro s t hs
  refine ⟨fun b h hdone => ?push, fun h hdone => ?emit, fun b h hsome => ?pull⟩
  case push =>
    cases exec_effect h with
    | pushDone _ hf => exact hs.pushed_slot hf b
    | _ => cases hdone
  case emit =>
    cases exec_effect h with
    | emitDone hl hr hb hf => exact ⟨_, nextByte_of_owner hl hr hb, hs.pushed_slot hf _⟩
    | _ => cases hdone
  case pull =>
    cases exec_effect h with
    | pullSome => cases hsome; exact hs.pulled_slot
    | _ => cases hsome

/-- Settles O20: each of the three operations reaches its access, and the access finds no slot. -/
theorem accessOutsideTheSlotsFaults : Obligations.AccessOutsideTheSlotsFaults := by
  refine ⟨fun b _ => execRbPush_of_not_slot b, ?emit, fun _ => execRbPull_of_not_slot⟩
  case emit =>
    intro s p hdr pay ovf hp hl hr hpos hf hh
    obtain ⟨b, hb⟩ := exists_nextByte hl hr hpos
    exact execMsEmit_of_not_slot hp hb hf hh
end

section
/-! SUPPORT. What a step leaves of a pending request (R44, R17). -/

namespace Sys2Proof.Machine

open Sys2Proof

variable {i : Instr} {s t : State} {p : Nat} {hdr : Vector Byte 12} {pay : List Byte} {ovf : Bool}

/-- An acceptance needs an idle port, so it is another port's; a release ends its owner's request, and
no other effect but reset writes `req`. -/
theorem Effect.pending_kept_or_released (he : Effect s i t) (hi : i ≠ .init)
    (hr : s.req[p]? = some (.pending hdr pay ovf)) :
    t.req[p]? = some (.pending hdr pay ovf) ∨
    (i = .msRelease ∧ s.lockOwner = some p ∧ t.req[p]? = some .idle) := by
  cases he with
  | initDone => exact absurd rfl hi
  | @released q _ _ _ hl =>
    rcases eq_or_ne q p with rfl | hne
    · exact .inr ⟨rfl, hl, List.getElem?_set_self (List.getElem?_eq_some_iff.1 hr).1⟩
    · exact .inl ((List.getElem?_set_ne hne).trans hr)
  | @accepted _ q _ _ _ _ hidle =>
    have hne : q ≠ p := by rintro rfl; cases hidle.symm.trans hr
    exact .inl ((List.getElem?_set_ne hne).trans hr)
  | _ => exact .inl hr

end Sys2Proof.Machine

open Sys2Proof Sys2Proof.Machine

/-- Settles O44: read off what a step can do. -/
theorem pendingRequestsAreStable : Obligations.PendingRequestsAreStable :=
  fun _ _ _ _ _ _ _ hi h hr => (exec_effect h).pending_kept_or_released hi hr
end

section
/-! SUPPORT. Decoding and encoding are inverse to each other (log entry 1): a label with operands that fit
is read back, and what a reader accepts is the encoding of what it answers. Each composite reader of
Decode.lean has one lemma of the second kind; `decode_eq_ok_iff` joins the two directions. -/

namespace Sys2Proof

variable {label : Byte} {bs rest : List Byte} {i : Instr}

/-! ### Reading an encoding -/

theorem bitVec_two_cases : ∀ low : BitVec 2, low = 0 ∨ low = 1 ∨ low = 2 ∨ low = 3 := by decide

/-- R59: the two low OPSEL bits of a reserved label are the operand. -/
theorem readOperands_reserved (low : BitVec 2) (bs : List Byte) :
    readOperands (Instr.reserved low).label bs = .ok (.reserved low, bs) := by
  rcases bitVec_two_cases low with rfl | rfl | rfl | rfl <;> rfl

theorem readNat_port {p : Nat} (hp : portFits p = true) (rest : List Byte) :
    readNat 2 (writeNat 2 p ++ rest) = .ok (p, rest) :=
  readNat_writeNat 2 p rest (of_decide_eq_true hp)

theorem readNat_len {n : Nat} (hn : lenFits n = true) (rest : List Byte) :
    readNat 4 (writeNat 4 n ++ rest) = .ok (n, rest) :=
  readNat_writeNat 4 n rest (of_decide_eq_true hn)

theorem readHeTsmux_operandBytes (ovr : Option Long) (time : TimeAnswer) (rest : List Byte) :
    readHeTsmux ((Instr.heTsmux ovr time).operandBytes ++ rest) = .ok (.heTsmux ovr time, rest) := by
  simp [Instr.operandBytes, readHeTsmux, readOvr_writeOvr, readTime_writeTime]

theorem readHeEncode_operandBytes (opcode : Half) {len : Nat} (ovr : Option Long) (time : TimeAnswer)
    (hlen : lenFits len = true) (rest : List Byte) :
    readHeEncode ((Instr.heEncode opcode len ovr time).operandBytes ++ rest)
      = .ok (.heEncode opcode len ovr time, rest) := by
  simp [Instr.operandBytes, readHeEncode, readHalf_writeHalf, readNat_len hlen, readOvr_writeOvr,
    readTime_writeTime]

theorem readMsSend_operandBytes {p : Nat} (opcode : Half) {payload : List Byte} (time : TimeAnswer)
    (hp : portFits p = true) (hlen : lenFits payload.length = true) (rest : List Byte) :
    readMsSend ((Instr.msSend p opcode payload time).operandBytes ++ rest)
      = .ok (.msSend p opcode payload time, rest) := by
  simp [Instr.operandBytes, readMsSend, readNat_port hp, readHalf_writeHalf,
    readList_writeList _ _ hlen, readTime_writeTime]

theorem readMsSendFrag_operandBytes {p : Nat} (opcode : Half) {frags : List (List Byte)}
    (time : TimeAnswer) (hp : portFits p = true) (hcount : lenFits frags.length = true)
    (hlens : frags.all (fun f => lenFits f.length) = true) (rest : List Byte) :
    readMsSendFrag ((Instr.msSendFrag p opcode frags time).operandBytes ++ rest)
      = .ok (.msSendFrag p opcode frags time, rest) := by
  simp [Instr.operandBytes, readMsSendFrag, readNat_port hp, readHalf_writeHalf,
    readFrags_writeFrags _ _ hcount hlens, readTime_writeTime]

theorem readIxRegisterIndex_operandBytes {p : Nat} (busId : Byte) (address : Vector Byte 6)
    {name : List Byte} (time : TimeAnswer) (hp : portFits p = true)
    (hlen : lenFits name.length = true) (rest : List Byte) :
    readIxRegisterIndex ((Instr.ixRegisterIndex p busId address name time).operandBytes ++ rest)
      = .ok (.ixRegisterIndex p busId address name time, rest) := by
  simp [Instr.operandBytes, readIxRegisterIndex, readNat_port hp, readByte, readSix_toList,
    readList_writeList _ _ hlen, readTime_writeTime]

/-- R50: the pattern's fixed bytes are read over, its fields are read back. -/
theorem readMonitorHeader_operandBytes (dataLen opcode : Half) (extType : Byte) (ts32 : Word)
    (rest : List Byte) :
    readMonitorHeader ((Instr.monitorHeader dataLen opcode extType ts32).operandBytes ++ rest)
      = .ok (.monitorHeader dataLen opcode extType ts32, rest) := by
  simp [Instr.operandBytes, readMonitorHeader, readHalf_writeHalf, readFixed, readByte,
    readWord_writeWord]

/-- R53: the pattern's fixed bytes are read over, its fields are read back. -/
theorem readIndexRecord_operandBytes (bus : Byte) (address : Vector Byte 6) (name : Vector Byte 7)
    (rest : List Byte) :
    readIndexRecord ((Instr.indexRecord bus address name).operandBytes ++ rest)
      = .ok (.indexRecord bus address name, rest) := by
  simp [Instr.operandBytes, readIndexRecord, readFixed, readByte, readSix_toList, readSeven_toList]

/-- Each label leads to its reader, which reads its operands back. -/
theorem readOperands_operandBytes (hi : i.fits = true) :
    readOperands i.label (i.operandBytes ++ rest) = .ok (i, rest) := by
  cases i with
  | init | rbPush | rbPull | rbKick | msRelease | msEmit => rfl
  | reserved low => exact readOperands_reserved low rest
  | heTsmux ovr time => exact readHeTsmux_operandBytes ovr time rest
  | heEncode opcode len ovr time => exact readHeEncode_operandBytes opcode ovr time hi rest
  | msAcquire p =>
    exact (readOperands_msAcquire _).trans (by rw [Instr.operandBytes, readNat_port hi]; rfl)
  | msSend p opcode payload time =>
    obtain ⟨hp, hlen⟩ := Bool.and_eq_true_iff.1 hi
    exact readMsSend_operandBytes opcode time hp hlen rest
  | msSendFrag p opcode frags time =>
    obtain ⟨hpc, hlens⟩ := Bool.and_eq_true_iff.1 hi
    obtain ⟨hp, hcount⟩ := Bool.and_eq_true_iff.1 hpc
    exact readMsSendFrag_operandBytes opcode time hp hcount hlens rest
  | ixRegisterIndex p busId address name time =>
    obtain ⟨hp, hlen⟩ := Bool.and_eq_true_iff.1 hi
    exact readIxRegisterIndex_operandBytes busId address time hp hlen rest
  | monitorHeader dataLen opcode extType ts32 =>
    exact readMonitorHeader_operandBytes dataLen opcode extType ts32 rest
  | indexRecord bus address name => exact readIndexRecord_operandBytes bus address name rest

/-! ### What a reader accepts is an encoding -/

/-- `label :: bs` is the encoding of `i`, whose operands fit, with `rest` behind it. -/
def IsEncoding (label : Byte) (bs : List Byte) (i : Instr) (rest : List Byte) : Prop :=
  encode i ++ rest = label :: bs ∧ i.fits = true

theorem portFits_of_readNat {p : Nat} (h : readNat 2 bs = .ok (p, rest)) :
    writeNat 2 p ++ rest = bs ∧ portFits p = true :=
  ⟨(readNat_eq_ok h).2, decide_eq_true (readNat_eq_ok h).1⟩

theorem lenFits_of_readNat {n : Nat} (h : readNat 4 bs = .ok (n, rest)) :
    writeNat 4 n ++ rest = bs ∧ lenFits n = true :=
  ⟨(readNat_eq_ok h).2, decide_eq_true (readNat_eq_ok h).1⟩

theorem readHeTsmux_eq_ok (h : readHeTsmux bs = .ok (i, rest)) : IsEncoding 0x4 bs i rest := by
  simp only [readHeTsmux, except_bind_eq_ok] at h
  obtain ⟨⟨ovr, _⟩, hovr, ⟨time, _⟩, htime, h⟩ := h
  cases h; dsimp only at *
  rw [← readOvr_eq_ok hovr, ← readTime_eq_ok htime]
  exact ⟨by simp [encode, Instr.label, Instr.operandBytes], rfl⟩

theorem readHeEncode_eq_ok (h : readHeEncode bs = .ok (i, rest)) : IsEncoding 0x5 bs i rest := by
  simp only [readHeEncode, except_bind_eq_ok] at h
  obtain ⟨⟨opcode, _⟩, hop, ⟨len, _⟩, hlen, ⟨ovr, _⟩, hovr, ⟨time, _⟩, htime, h⟩ := h
  cases h; dsimp only at *
  obtain ⟨elen, flen⟩ := lenFits_of_readNat hlen
  rw [← readHalf_eq_ok hop, ← elen, ← readOvr_eq_ok hovr, ← readTime_eq_ok htime]
  exact ⟨by simp [encode, Instr.label, Instr.operandBytes], flen⟩

theorem readMsSend_eq_ok (h : readMsSend bs = .ok (i, rest)) : IsEncoding 0x8 bs i rest := by
  simp only [readMsSend, except_bind_eq_ok] at h
  obtain ⟨⟨p, _⟩, hp, ⟨opcode, _⟩, hop, ⟨payload, _⟩, hpay, ⟨time, _⟩, htime, h⟩ := h
  cases h; dsimp only at *
  obtain ⟨ep, fp⟩ := portFits_of_readNat hp
  obtain ⟨epay, fpay⟩ := readList_eq_ok hpay
  rw [← ep, ← readHalf_eq_ok hop, ← epay, ← readTime_eq_ok htime]
  exact ⟨by simp [encode, Instr.label, Instr.operandBytes], by simp [Instr.fits, fp, fpay]⟩

theorem readMsSendFrag_eq_ok (h : readMsSendFrag bs = .ok (i, rest)) : IsEncoding 0x9 bs i rest := by
  simp only [readMsSendFrag, except_bind_eq_ok] at h
  obtain ⟨⟨p, _⟩, hp, ⟨opcode, _⟩, hop, ⟨frags, _⟩, hfr, ⟨time, _⟩, htime, h⟩ := h
  cases h; dsimp only at *
  obtain ⟨ep, fp⟩ := portFits_of_readNat hp
  obtain ⟨efr, fcount, flens⟩ := readFrags_eq_ok hfr
  rw [← ep, ← readHalf_eq_ok hop, ← efr, ← readTime_eq_ok htime]
  exact ⟨by simp [encode, Instr.label, Instr.operandBytes],
    by rw [Instr.fits, fp, fcount, flens]; rfl⟩

theorem readIxRegisterIndex_eq_ok (h : readIxRegisterIndex bs = .ok (i, rest)) :
    IsEncoding 0xA bs i rest := by
  simp only [readIxRegisterIndex, except_bind_eq_ok] at h
  obtain ⟨⟨p, _⟩, hp, ⟨busId, _⟩, hbus, ⟨address, _⟩, haddr, ⟨name, _⟩, hname,
    ⟨time, _⟩, htime, h⟩ := h
  cases h; dsimp only at *
  obtain ⟨ep, fp⟩ := portFits_of_readNat hp
  obtain ⟨ename, fname⟩ := readList_eq_ok hname
  rw [← ep, ← readByte_eq_ok hbus, ← readSix_eq_ok haddr, ← ename, ← readTime_eq_ok htime]
  exact ⟨by simp [encode, Instr.label, Instr.operandBytes], by simp [Instr.fits, fp, fname]⟩

theorem readMonitorHeader_eq_ok (h : readMonitorHeader bs = .ok (i, rest)) :
    IsEncoding 0x10 bs i rest := by
  simp only [readMonitorHeader, except_bind_eq_ok] at h
  obtain ⟨⟨dataLen, _⟩, hlen, ⟨_, _⟩, hfive, ⟨opcode, _⟩, hop, ⟨_, _⟩, hzero, ⟨_, _⟩, hzero',
    ⟨extType, _⟩, hext, ⟨ts32, _⟩, hts, h⟩ := h
  cases h; dsimp only at *
  rw [← readHalf_eq_ok hlen, ← readFixed_eq_ok hfive, ← readHalf_eq_ok hop, ← readFixed_eq_ok hzero,
    ← readFixed_eq_ok hzero', ← readByte_eq_ok hext, ← readWord_eq_ok hts]
  exact ⟨by simp [encode, Instr.label, Instr.operandBytes], rfl⟩

theorem readIndexRecord_eq_ok (h : readIndexRecord bs = .ok (i, rest)) :
    IsEncoding 0x11 bs i rest := by
  simp only [readIndexRecord, except_bind_eq_ok] at h
  obtain ⟨⟨_, _⟩, hzero, ⟨bus, _⟩, hbus, ⟨address, _⟩, haddr, ⟨name, _⟩, hname,
    ⟨_, _⟩, hend, h⟩ := h
  cases h; dsimp only at *
  rw [← readFixed_eq_ok hzero, ← readByte_eq_ok hbus, ← readSix_eq_ok haddr, ← readSeven_eq_ok hname,
    ← readFixed_eq_ok hend]
  exact ⟨by simp [encode, Instr.label, Instr.operandBytes], rfl⟩

theorem readOperands_rbPush_eq_ok
    (h : (readByte bs >>= fun r => .ok (.rbPush r.1, r.2)) = .ok (i, rest)) :
    IsEncoding 0x1 bs i rest := by
  obtain ⟨⟨b, _⟩, hb, h⟩ := except_bind_eq_ok.1 h
  cases h
  rw [← readByte_eq_ok hb]
  exact ⟨rfl, rfl⟩

theorem readOperands_msAcquire_eq_ok
    (h : (readNat 2 bs >>= fun r => .ok (.msAcquire r.1, r.2)) = .ok (i, rest)) :
    IsEncoding 0x6 bs i rest := by
  obtain ⟨⟨p, _⟩, hp, h⟩ := except_bind_eq_ok.1 h
  cases h
  obtain ⟨ep, fp⟩ := portFits_of_readNat hp
  rw [← ep]
  exact ⟨rfl, fp⟩

/-- The reader of each label of R58 and R59 accepts encodings only. -/
theorem readOperands_eq_ok (h : readOperands label bs = .ok (i, rest)) :
    IsEncoding label bs i rest := by
  suffices IsEncoding (BitVec.ofNat 8 label.toNat) bs i rest by simpa using this
  unfold readOperands at h
  match label.toNat, h with
  | 0x0, h | 0x2, h | 0x3, h | 0x7, h | 0xB, h | 0xC, h | 0xD, h | 0xE, h | 0xF, h =>
    cases h; exact ⟨rfl, rfl⟩
  | 0x1, h => exact readOperands_rbPush_eq_ok h
  | 0x4, h => exact readHeTsmux_eq_ok h
  | 0x5, h => exact readHeEncode_eq_ok h
  | 0x6, h => exact readOperands_msAcquire_eq_ok h
  | 0x8, h => exact readMsSend_eq_ok h
  | 0x9, h => exact readMsSendFrag_eq_ok h
  | 0xA, h => exact readIxRegisterIndex_eq_ok h
  | 0x10, h => exact readMonitorHeader_eq_ok h
  | 0x11, h => exact readIndexRecord_eq_ok h
  | n + 0x12, h => cases h

/-! ### The two directions joined -/

/-- A stream decodes to `i` exactly where it begins with the encoding of `i` and the operands of `i`
fit. -/
theorem decode_eq_ok_iff : decode bs = .ok (i, rest) ↔ encode i ++ rest = bs ∧ i.fits = true := by
  constructor
  · intro h
    cases bs with
    | nil => cases h
    | cons label bs => exact readOperands_eq_ok h
  · rintro ⟨rfl, hi⟩
    exact readOperands_operandBytes hi

/-- A table word is read as `i` exactly where its bytes begin with the encoding of `i`. -/
theorem decodeTableWord_eq_some_iff {nbits w : Nat} : decodeTableWord nbits w = some i ↔
    ∃ rest, encode i ++ rest = tableBytes nbits w ∧ i.fits = true := by
  simp only [← decode_eq_ok_iff, decodeTableWord]
  cases decode (tableBytes nbits w) with
  | ok r => obtain ⟨j, r⟩ := r; simp
  | error e => simp

/-- Log entry 1: 0x11 is the last label byte. -/
theorem decode_of_unknownLabel (bs : List Byte) (h : 0x11 < label.toNat) :
    decode (label :: bs) = .error (.unknownLabel label) := by
  obtain ⟨n, hn⟩ : ∃ n, label.toNat = n + 0x12 := ⟨_, (Nat.sub_add_cancel h).symm⟩
  rw [decode_cons, readOperands, hn]
  rfl

end Sys2Proof

open Sys2Proof Sys2Proof.Machine

/-- Settles O2: the decoder reaches the reader of the label, and each reader reads back what was
written. -/
theorem decodeOfEncodeIsTheInstruction : Obligations.DecodeOfEncodeIsTheInstruction :=
  fun _ _ hi => decode_eq_ok_iff.2 ⟨rfl, hi⟩

/-- Settles O3: the reader of each label accepts only what its writer writes. -/
theorem encodeOfDecodeIsTheStream : Obligations.EncodeOfDecodeIsTheStream :=
  fun _ _ _ => decode_eq_ok_iff.1

/-- Settles O4: an empty stream has no label byte, and no reader belongs to a label above 0x11. -/
theorem unknownLabelsAreRejected : Obligations.UnknownLabelsAreRejected :=
  ⟨rfl, fun _ => decode_of_unknownLabel⟩

/-- Settles O1: each table word is the encoding of its operation with operands of zero bytes. -/
theorem operationTableLabels : Obligations.OperationTableLabels := by
  refine ⟨?_, ?_, ?_, ?_, ?_, ?_, ?_, ?_, ?_, ?_, ?_, ?_, ?_, ?_, ?_, ?_⟩ <;>
    exact decodeTableWord_eq_some_iff.2 ⟨_, rfl, rfl⟩
end

section
/-! SUPPORT. A table word put at the head of the feed (log entry 2). -/

namespace Sys2Proof.Machine

open Sys2Proof

/-- Exactly the encoding of the word's instruction is put before the feed: the zeros behind it in the
word's bytes stay out. -/
theorem withFetchWord_of_decodeTableWord {nbits w : Nat} {i : Instr} (s : State)
    (h : decodeTableWord nbits w = some i) :
    s.withFetchWord nbits w = { s with feed := encode i ++ s.feed } ∧ i.fits = true := by
  obtain ⟨rest, hbytes, hi⟩ := decodeTableWord_eq_some_iff.1 h
  have hd : decode (tableBytes nbits w) = .ok (i, rest) := decode_eq_ok_iff.2 ⟨hbytes, hi⟩
  simp only [State.withFetchWord, hd]
  simp [← hbytes, hi]

end Sys2Proof.Machine

open Sys2Proof Sys2Proof.Machine

/-- Settles O6: the feed begins with the encoding of the word's instruction, so the step decodes it and
leaves the feed as it was. -/
theorem fetchedTableWordRuns : Obligations.FetchedTableWordRuns := by
  intro s nbits w i h
  obtain ⟨hfetch, hi⟩ := withFetchWord_of_decodeTableWord s h
  rw [hfetch, step_of_decode_ok (decode_eq_ok_iff.2 ⟨rfl, hi⟩)]
end

section
/-! SUPPORT. What the block builds for the wire has the patterns of the operation table (R50, R53): its
bytes are the operand bytes of the pattern's instruction. -/

namespace Sys2Proof.Machine

open Sys2Proof

/-- R50, R94: the header's bytes are the pattern's, with each field in its place. -/
theorem headerBytes_toList (c : Params) (dataLen opcode : Half) (ts32 : Word) :
    (headerBytes c dataLen opcode ts32).toList =
      (Instr.monitorHeader dataLen opcode c.extType ts32).operandBytes := by
  simp [headerBytes, hdrLen, Instr.operandBytes, writeHalf_eq, writeWord_eq]

/-- R131: a name field is NAME_W - 1 bytes, of the name and then of zeros, before its final 0x00. -/
theorem nameField_succ (n : Nat) (name : List Byte) :
    nameField (n + 1) name = (name ++ List.replicate n 0x00).take n ++ [0x00] := by
  unfold nameField
  split
  case isTrue hlong => rw [List.take_append_of_le_length (by omega), Nat.add_sub_cancel]
  case isFalse hshort =>
    have hle : name.length ≤ n := by omega
    rw [List.take_append, List.take_of_length_le hle, List.take_replicate, List.append_assoc,
      ← List.replicate_succ', Nat.min_eq_left (Nat.sub_le _ _), Nat.succ_sub hle]

/-- R53: with NAME_W = 8 the name field is the pattern's seven bytes and its final 0x00. -/
theorem exists_nameField_eight (name : List Byte) :
    ∃ n : Vector Byte 7, n.toList ++ [0x00] = nameField 8 name :=
  ⟨⟨((name ++ List.replicate 7 0x00).take 7).toArray, by simp⟩,
    by rw [nameField_succ 7 name]; rfl⟩

end Sys2Proof.Machine

open Sys2Proof Sys2Proof.Machine

/-- Settles O33: the encoded header behind its label is the encoding of the pattern. -/
theorem encodedHeaderHasTheWirePattern : Obligations.EncodedHeaderHasTheWirePattern := by
  intro c opcode len ovr time rest
  rw [encodeHeader, headerBytes_toList]
  exact decode_eq_ok_iff.2 ⟨rfl, rfl⟩

/-- Settles O34: the payload behind its label is the encoding of the pattern, for the seven bytes that
the name field has before its final 0x00. -/
theorem indexPayloadHasTheWirePattern : Obligations.IndexPayloadHasTheWirePattern := by
  intro c busId address name rest hw
  obtain ⟨n, hn⟩ := exists_nameField_eight name
  refine ⟨n, hn, decode_eq_ok_iff.2 ⟨?_, rfl⟩⟩
  simp [indexPayload, hw, ← hn, encode, Instr.label, Instr.operandBytes]
end

section
/-! SUPPORT. Requests that the block refuses whatever the ring holds (R58, R59, R56, R114). -/

namespace Sys2Proof.Machine

open Sys2Proof

variable {s : State} {p : Nat}

theorem acceptRequest_of_noPort (opcode : Half) (payload : List Byte) (time : TimeAnswer)
    (hp : s.req[p]? = none) : acceptRequest p opcode payload time s = .refused .noSuchPort := by
  simp only [acceptRequest, hp]

theorem execMsAcquire_of_noPort (hs : s.phase ≠ .beforeInit) (hp : s.req[p]? = none) :
    execMsAcquire p s = .refused .noSuchPort := by
  simp only [execMsAcquire, hp, afterInit_started s _ hs]

/-- R130: a name is in its domain where it holds no 0x00. -/
theorem nulFree_eq_true_iff (name : List Byte) : nulFree name = true ↔ ∀ b ∈ name, b ≠ 0x00 := by
  simp [nulFree]

end Sys2Proof.Machine

open Sys2Proof Sys2Proof.Machine

/-- Settles O11: the meaning of a reserved OPSEL reads no state. -/
theorem reservedOpselIsRefused : Obligations.ReservedOpselIsRefused :=
  fun _ _ => rfl

/-- Settles O12: the two patterns' meanings read no state. -/
theorem wirePatternsAreNoOperations : Obligations.WirePatternsAreNoOperations :=
  ⟨fun _ _ _ _ _ => rfl, fun _ _ _ _ => rfl⟩

/-- Settles O39: the three requests come to an acceptance, which finds no port, as does the grant. -/
theorem missingPortsAreRefused : Obligations.MissingPortsAreRefused := by
  intro p opcode payload frags busId address name time s hs hp hname
  have hnone : s.req[p]? = none := List.getElem?_eq_none hp
  have haccept (opcode payload) :
      afterInit s (acceptRequest p opcode payload time s) = .refused .noSuchPort :=
    (afterInit_started s _ hs).trans (acceptRequest_of_noPort opcode payload time hnone)
  refine ⟨haccept _ _, haccept _ _, ?index, execMsAcquire_of_noPort hs hnone⟩
  case index =>
    change execIxRegisterIndex p busId address name time s = _
    rw [execIxRegisterIndex, if_pos ((nulFree_eq_true_iff name).2 hname), haccept]
end

section
/-! SUPPORT. How a step moves the indices of the ring and the transmitter's flag, read off `Effect` (R70,
R72, R73, R80). -/

namespace Sys2Proof.Machine

open Sys2Proof

variable {c : Params} {i : Instr} {s t : State}

/-! ### The index arithmetic -/

theorem toNat_maskOf (hc : c.wf = true) : (maskOf c).toNat = capOf c - 1 := by
  have hle := capOf_le hc
  rw [maskOf, BitVec.toNat_ofNat, Nat.mod_eq_of_lt (by omega)]

/-- The last slot is followed by slot 0. -/
theorem incWrap_maskOf (hc : c.wf = true) : incWrap c (maskOf c) = 0 := by
  apply BitVec.eq_of_toNat_eq
  rw [toNat_incWrap hc, toNat_maskOf hc, Nat.sub_add_cancel (capOf_pos c), Nat.mod_self]
  rfl

theorem toNat_incWrap_of_lt_maskOf (hc : c.wf = true) {j : Half} (hj : j.toNat < (maskOf c).toNat) :
    (incWrap c j).toNat = j.toNat + 1 := by
  rw [toNat_maskOf hc] at hj
  rw [toNat_incWrap hc, Nat.mod_eq_of_lt (by omega)]

/-! ### What a step does to the ring -/

/-- R72: only a push that is DONE moves `head`. -/
theorem Effect.head_eq_or_incWrap (he : Effect s i t) (hi : i ≠ .init) :
    t.head = s.head ∨ t.head = incWrap s.cfg s.head := by
  cases he with
  | initDone => exact absurd rfl hi
  | pushDone | emitDone => exact .inr rfl
  | _ => exact .inl rfl

/-- R73: only a pull that returns a byte moves `tail`. -/
theorem Effect.tail_eq_or_incWrap (he : Effect s i t) (hi : i ≠ .init) :
    t.tail = s.tail ∨ t.tail = incWrap s.cfg s.tail := by
  cases he with
  | initDone => exact absurd rfl hi
  | pullSome => exact .inr rfl
  | _ => exact .inl rfl

/-- R72, R82: what else than a pull moves an index is a push that is DONE, which needs room. -/
theorem Effect.rbPull_of_full_lifted (he : Effect s i t) (hi : i ≠ .init) (hs : isFull s = true)
    (ht : isFull t = false) : i = .rbPull := by
  cases he with
  | initDone => exact absurd rfl hi
  | pullNone | pullSome => rfl
  | pushDone _ hroom | emitDone _ _ _ hroom => cases hs.symm.trans hroom
  | _ => cases hs.symm.trans ht

/-- R80: every push kicks, and the transmitter stops only on an empty buffer. -/
theorem Effect.drain (he : Effect s i t) (hs : s.head ≠ s.tail → s.txActive = true)
    (ht : t.head ≠ t.tail) : t.txActive = true := by
  cases he with
  | initDone => exact absurd rfl ht
  | pushDone | pushHold | kicked | emitDone | emitHold => rfl
  | pullNone hempty => exact absurd ((isEmpty_eq_true_iff s).1 hempty) ht
  | pullSome hsome =>
    refine hs fun heq => ?_
    cases hsome.symm.trans ((isEmpty_eq_true_iff s).2 heq)
  | _ => exact hs ht

end Sys2Proof.Machine

open Sys2Proof Sys2Proof.Machine

/-- Settles O15: each effect keeps R80, whatever else the state is like. -/
theorem queuedBytesKeepTheTransmitterActive : Obligations.QueuedBytesKeepTheTransmitterActive :=
  fun _ _ _ hs h ht => (exec_effect h).drain hs ht

/-- Settles O17: masking is reduction modulo CAP, and the effects move the indices by nothing else. -/
theorem indexAdvancesByOneModuloCap : Obligations.IndexAdvancesByOneModuloCap := by
  refine ⟨fun c j hc => ?arithmetic, fun i s t hi h => ?steps⟩
  case arithmetic =>
    exact ⟨rfl, toNat_incWrap hc j, incWrap_maskOf hc, toNat_incWrap_of_lt_maskOf hc⟩
  case steps =>
    exact ⟨(exec_effect h).head_eq_or_incWrap hi, (exec_effect h).tail_eq_or_incWrap hi⟩

/-- Settles O21: no effect but a pull makes room in a full buffer. -/
theorem onlyAPullLiftsAHold : Obligations.OnlyAPullLiftsAHold :=
  fun _ _ _ hi h => (exec_effect h).rbPull_of_full_lifted hi
end

section
/-! SUPPORT. `RB.PUSH`, `RB.PULL` and `RB.KICK` as equations in the cases that Laws/Queue.lean leaves (R72,
R73, R75, R83), and what lifts a `HOLD` (R82). -/

namespace Sys2Proof.Machine

open Sys2Proof

variable {s : State}

/-! ### The operations as equations -/

/-- R83: without a holder of the lock there is no attempt. -/
theorem execRbPush_of_free (b : Byte) (hs : s.phase ≠ .beforeInit) (hl : s.lockOwner = none) :
    execRbPush b s = .refused .pushWithoutLock := by
  simp [execRbPush, hs, isLocked, hl]

/-- A push into a full buffer holds, whether or not `head` is a slot number. -/
theorem execRbPush_of_full (b : Byte) (hs : s.phase ≠ .beforeInit) (hl : isLocked s = true)
    (hf : isFull s = true) : execRbPush b s = .next (reply (kick s) .hold) := by
  simp [execRbPush, hs, hl, pushAttempt, hf]

/-- R74: a pull from an empty buffer. -/
theorem execRbPull_of_empty (hs : s.phase ≠ .beforeInit) (he : isEmpty s = true) :
    execRbPull s = .next (reply { s with txActive := false } (.pulled none)) := by
  simp [execRbPull, hs, pullOne, he]

theorem execRbKick_of_started (hs : s.phase ≠ .beforeInit) :
    execRbKick s = .next (reply (kick s) .kicked) :=
  afterInit_started s _ hs

/-! ### The answers of a legal state (R81) -/

theorem StateInv.push_hold_iff_full (hs : StateInv s) (hl : isLocked s = true) (b : Byte) :
    ∃ t, execRbPush b s = .next t ∧ (t.answer = .hold ↔ isFull s = true) := by
  refine ⟨_, execRbPush_of_locked hs.started hl hs.headSlot, ?_⟩
  cases hf : isFull s <;> simp

theorem StateInv.pull_none_iff_empty (hs : StateInv s) :
    ∃ t, execRbPull s = .next t ∧ (t.answer = .pulled none ↔ isEmpty s = true) := by
  cases he : isEmpty s with
  | true => exact ⟨_, execRbPull_of_empty hs.started he, by simp⟩
  | false => exact ⟨_, execRbPull_of_not_empty hs.started he hs.tailSlot, by simp⟩

/-! ### What lifts a `HOLD` (R82) -/

/-- With the buffer full and byte `b` of the record due, a pull returns a byte, leaves `b` due, and makes
the room that the next EMIT needs. -/
theorem StateInv.emit_done_after_pull (hs : StateInv s) {p : Nat} {hdr : Vector Byte 12}
    {pay : List Byte} {ovf : Bool} {b : Byte} (hl : s.lockOwner = some p)
    (hr : s.req[p]? = some (.pending hdr pay ovf)) (hb : (recordOf hdr pay)[s.pos]? = some b)
    (hf : isFull s = true) :
    ∃ u a v, execRbPull s = .next u ∧ u.answer = .pulled (some a) ∧ nextByte u = nextByte s ∧
      execMsEmit u = .next v ∧ v.answer = .done ∧ v.pos = s.pos + 1 := by
  have hsome : isEmpty s = false := isEmpty_of_isFull hs.params hs.headSlot hf
  have hpull := execRbPull_of_not_empty hs.started hsome hs.tailSlot
  have hroom (a : Answer) : isFull (reply (pulledState s) a) = false :=
    isFull_pulled hs.params hs.tailSlot hf
  have hemit (a : Answer) :=
    execMsEmit_of_owner (s := reply (pulledState s) a) nofun hl hr hb hs.headSlot
  simp only [hroom] at hemit
  exact ⟨_, _, _, hpull, rfl, rfl, hemit _, rfl, rfl⟩

end Sys2Proof.Machine

open Sys2Proof Sys2Proof.Machine

/-- Settles O19: the two cases of a push attempt; a write to slot `head` is read back there, and no other
slot changes. -/
theorem pushStoresOrHolds : Obligations.PushStoresOrHolds := by
  intro b s hs hl
  refine ⟨execRbPush_of_full b hs hl, fun hf hh => ?done⟩
  case done =>
    have hpush := execRbPush_of_locked (b := b) hs hl hh
    rw [hf] at hpush
    exact ⟨_, hpush, rfl, Memory.get_put_self _ _ b, fun _ hne => Memory.get_put_of_ne _ b hne,
      Memory.put_wf _ _ b⟩

/-- Settles O22: the two cases of a pull. -/
theorem pullTakesTheOldestOrStops : Obligations.PullTakesTheOldestOrStops :=
  fun _ hs => ⟨execRbPull_of_empty hs, execRbPull_of_not_empty hs⟩

/-- Settles O23: the answers tell FULL and EMPTY, which the counter decides. -/
theorem fullAndEmptyAreReportedExactly : Obligations.FullAndEmptyAreReportedExactly := by
  intro s hs
  have hfull := isFull_iff_countOf hs.params hs.headSlot hs.tailSlot
  have hempty := isEmpty_iff_countOf hs.params hs.headSlot hs.tailSlot
  refine ⟨fun b hl => ?push, ?pull⟩
  case push =>
    obtain ⟨t, h, hhold⟩ := hs.push_hold_iff_full hl b
    exact ⟨t, h, hhold.trans hfull⟩
  case pull =>
    obtain ⟨t, h, hnone⟩ := hs.pull_none_iff_empty
    exact ⟨t, h, hnone.trans hempty⟩

/-- Settles O24: the kicked state is its own kick, and its indices are those of `s`. -/
theorem kickIsIdempotent : Obligations.KickIsIdempotent := by
  intro s hs
  refine ⟨_, execRbKick_of_started hs, rfl, execRbKick_of_started nofun, fun he => ?pull⟩
  case pull => exact ⟨_, execRbPull_of_empty nofun he, rfl, rfl, rfl, rfl, rfl⟩

/-- Settles O52: the lock is read before the buffer. -/
theorem pushWithoutTheLockIsRefused : Obligations.PushWithoutTheLockIsRefused :=
  fun b _ => execRbPush_of_free b

/-- Settles O29: an EMIT that holds found the buffer full with a byte of the record due, and left a legal
state. -/
theorem onePullLetsAHeldPushIn : Obligations.OnePullLetsAHeldPushIn := by
  intro s t hs h hhold
  cases exec_effect h with
  | emitHold hl hr hb hf =>
    exact ⟨rfl, (hs.kicked.replied _).emit_done_after_pull hl hr hb hf⟩
  | _ => cases hhold
end

section
/-! SUPPORT. The ring buffer is a queue (R77, R78): the bytes pushed since reset, `emitted`, grow by what a
step pushes, so along a run from reset they are the bytes pushed, and `wire` is their front. -/

namespace Sys2Proof.Machine

open Sys2Proof

variable {i : Instr} {is : List Instr} {s t u : State}

/-! ### The byte that a step pushes -/

theorem pushedBy_of_full (i : Instr) (hf : isFull s = true) : pushedBy i s = [] :=
  if_pos hf

theorem pushedBy_rbPush (b : Byte) (hf : isFull s = false) : pushedBy (.rbPush b) s = [b] := by
  simp [pushedBy, hf]

theorem pushedBy_msEmit (hf : isFull s = false) : pushedBy .msEmit s = (nextByte s).toList := by
  simp [pushedBy, hf]

/-- R72, R116: no other step pushes. -/
theorem pushedBy_eq_nil (hpush : ∀ b, i ≠ .rbPush b) (hemit : i ≠ .msEmit) : pushedBy i s = [] := by
  cases i with
  | rbPush b => exact absurd rfl (hpush b)
  | msEmit => exact absurd rfl hemit
  | _ => exact ite_self _

/-- R116: in a legal state an EMIT that is not enabled has no byte to push. -/
theorem StateInv.nextByte_of_notEnabled (hs : StateInv s)
    (h : exec .msEmit s = .next (reply s .notEnabled)) : nextByte s = none := by
  rw [Option.eq_none_iff_forall_ne_some]
  intro b hb
  obtain ⟨bytes, ho, hb⟩ := nextByte_eq_some.1 hb
  obtain ⟨p, hdr, pay, ovf, hl, hr, rfl⟩ := ownerRecord_eq_some.1 ho
  have hemit : exec .msEmit s = _ := execMsEmit_of_owner hs.started hl hr hb hs.headSlot
  rw [h] at hemit
  split at hemit <;> cases congrArg State.answer (Host.Outcome.next.inj hemit)

theorem StateInv.pushedBy_of_notEnabled (hs : StateInv s)
    (h : exec i s = .next (reply s .notEnabled)) (hi : isAgentStep i = true) : pushedBy i s = [] := by
  by_cases hemit : i = .msEmit
  · subst hemit
    cases hf : isFull s with
    | true => exact pushedBy_of_full _ hf
    | false => rw [pushedBy_msEmit hf, hs.nextByte_of_notEnabled h, Option.toList_none]
  · exact pushedBy_eq_nil (by rintro b rfl; cases hi) hemit

/-! ### One step -/

/-- A pull moves the oldest queued byte to the end of `wire`. -/
theorem StateInv.emitted_pulled (hs : StateInv s) (he : isEmpty s = false) :
    emitted (pulledState s) = emitted s := by
  rw [emitted, emitted, queued_pulled hs.params hs.headSlot hs.tailSlot he]
  exact List.append_assoc _ _ _

/-- R77: the bytes pushed since reset grow by exactly the byte that the step pushes. -/
theorem StateInv.emitted_exec (hs : StateInv s) (hi : i ≠ .init) (h : exec i s = .next t) :
    emitted t = emitted s ++ pushedBy i s := by
  cases exec_effect h with
  | initDone => exact absurd rfl hi
  | pushDone _ hf => rw [pushedBy_rbPush _ hf]; exact hs.emitted_pushed hf _
  | emitDone hl hr hb hf =>
    rw [pushedBy_msEmit hf, nextByte_of_owner hl hr hb]; exact hs.emitted_pushed hf _
  | pushHold _ hf | emitHold _ _ _ hf => exact List.self_eq_append_right.2 (pushedBy_of_full _ hf)
  | disabled _ hagent => exact List.self_eq_append_right.2 (hs.pushedBy_of_notEnabled h hagent)
  | pullSome he =>
    exact (hs.emitted_pulled he).trans (List.self_eq_append_right.2 (pushedBy_eq_nil nofun nofun))
  | accepted hrole =>
    refine List.self_eq_append_right.2 (pushedBy_eq_nil ?_ ?_)
    · rintro b rfl; cases hrole
    · rintro rfl; cases hrole
  | _ => exact List.self_eq_append_right.2 (pushedBy_eq_nil nofun nofun)

theorem Effect.wire_grows (he : Effect s i t) (hi : i ≠ .init) :
    ∃ more, t.wire = s.wire ++ more := by
  cases he with
  | initDone => exact absurd rfl hi
  | pullSome => exact ⟨_, rfl⟩
  | _ => exact ⟨[], (List.append_nil _).symm⟩

/-! ### Runs -/

theorem runSteps_cons_eq_next :
    runSteps (i :: is) s = .next u ↔ ∃ t, exec i s = .next t ∧ runSteps is t = .next u := by
  cases h : exec i s <;> simp [runSteps, h]

theorem pushesAlong_cons (h : exec i s = .next t) :
    pushesAlong (i :: is) s = pushedBy i s ++ pushesAlong is t := by
  simp [pushesAlong, h]

/-- The invariant holds along every run. -/
theorem StateInv.run (hs : StateInv s) (h : runSteps is s = .next t) : StateInv t := by
  induction is generalizing s with
  | nil => cases h; exact hs
  | cons i is ih =>
    obtain ⟨s', hstep, hrest⟩ := runSteps_cons_eq_next.1 h
    exact ih (hs.effect (exec_effect hstep)) hrest

/-- R77 along a run. -/
theorem StateInv.emitted_run (hs : StateInv s) (hi : ∀ i ∈ is, i ≠ .init)
    (h : runSteps is s = .next t) : emitted t = emitted s ++ pushesAlong is s := by
  induction is generalizing s with
  | nil => cases h; exact (List.append_nil _).symm
  | cons i is ih =>
    obtain ⟨s', hstep, hrest⟩ := runSteps_cons_eq_next.1 h
    rw [List.forall_mem_cons] at hi
    rw [ih (hs.effect (exec_effect hstep)) hi.2 hrest, hs.emitted_exec hi.1 hstep,
      pushesAlong_cons hstep, List.append_assoc]

/-! ### The front of the queue -/

theorem StateInv.queued_eq_nil_iff (hs : StateInv s) : queued s = [] ↔ isEmpty s = true := by
  rw [isEmpty_iff_countOf hs.params hs.headSlot hs.tailSlot, ← length_queued, List.length_eq_zero_iff]

/-- Right after reset nothing has been pushed. -/
theorem emitted_resetOf {c : Params} (hc : c.wf = true) : emitted (State.resetOf c) = [] :=
  (stateInv_resetOf hc).queued_eq_nil_iff.2 rfl

/-- R78: the slot that a pull reads is the first of the queued ones, so it is listed. -/
theorem StateInv.find_tail (hs : StateInv s) (he : isEmpty s = false) :
    Memory.find s.storage s.tail.toNat = some (Memory.get s.storage s.tail.toNat) := by
  have hcount := countOf_pulled hs.params hs.headSlot hs.tailSlot he
  have hlisted := hs.queuedWritten 0 (by omega)
  rw [Nat.add_zero, Nat.mod_eq_of_lt hs.tailSlot] at hlisted
  obtain ⟨b, hb⟩ := Option.isSome_iff_exists.1 hlisted
  rw [hb, Memory.get_of_find hb]

end Sys2Proof.Machine

open Sys2Proof Sys2Proof.Machine

/-- Settles O25: what has been pushed grows by what the step pushes, and `wire` by what it pulls. -/
theorem stepKeepsFifoOrder : Obligations.StepKeepsFifoOrder :=
  fun _ _ _ hs hi h => ⟨hs.emitted_exec hi h, (exec_effect h).wire_grows hi⟩

/-- Settles O26: along a run from reset `wire` followed by the queue is what was pushed, and the queue has
no byte exactly where the buffer is empty. -/
theorem wireIsAPrefixOfThePushes : Obligations.WireIsAPrefixOfThePushes := by
  intro c is t hc hi h
  have hreset := stateInv_resetOf hc
  have hpushed : t.wire ++ queued t = pushesAlong is (State.resetOf c) := by
    have hrun := hreset.emitted_run hi h
    rwa [emitted_resetOf hc, List.nil_append] at hrun
  refine ⟨⟨queued t, hpushed⟩, ?_⟩
  rw [← hpushed, List.self_eq_append_right]
  exact (hreset.run h).queued_eq_nil_iff

/-- Settles O27: a pull that answers a byte found the buffer not empty. -/
theorem pullReturnsOnlyPushedBytes : Obligations.PullReturnsOnlyPushedBytes := by
  intro s t b hs h hb
  cases exec_effect h with
  | pullSome he => cases hb; exact hs.find_tail he
  | _ => cases hb
end

section
/-! SUPPORT. The fields of the header (R91 to R93) as numbers, and the answers of the encoder's two
operations. -/

namespace Sys2Proof.Machine

open Sys2Proof

variable {c : Params} {time : TimeAnswer} {s : State}

/-! ### The timestamp multiplexer -/

@[simp] theorem tsMux_override (c : Params) (t0 : Long) (time : TimeAnswer) :
    tsMux c (some t0) time = t0 := rfl

/-- R91: a valid wall clock, not before the floor. -/
theorem toNat_tsMux_wall (hok : time.wallOk = true)
    (hfloor : c.tsFloorSec.toNat ≤ time.wallSec.toNat) :
    (tsMux c none time).toNat =
      (time.wallSec.toNat * 1000000 + time.wallUsec.toNat) % 2 ^ 64 := by
  have hwall : time.wallOk = true ∧ c.tsFloorSec ≤ time.wallSec := ⟨hok, BitVec.le_def.2 hfloor⟩
  simp only [tsMux, if_pos hwall, BitVec.toNat_ofNat]

/-- R91: a failed wall clock, or one before the floor. -/
theorem tsMux_mono (h : time.wallOk = false ∨ time.wallSec.toNat < c.tsFloorSec.toNat) :
    tsMux c none time = time.monoUsec := by
  refine if_neg ?_
  rintro ⟨hok, hfloor⟩
  rcases h with hfail | hbefore
  · simp [hok] at hfail
  · exact absurd (BitVec.le_def.1 hfloor) (Nat.not_le.2 hbefore)

/-! ### The numbers in the header -/

/-- R93. -/
@[simp] theorem toNat_tickOf (t : Long) : (tickOf t).toNat = t.toNat / 100 % 2 ^ 32 :=
  BitVec.toNat_ofNat ..

/-- R92. -/
@[simp] theorem toNat_dataLen (len : Nat) : (dataLen len).toNat = (4 + 5 + len) % 2 ^ 16 :=
  BitVec.toNat_ofNat ..

/-- R92: the stored length is the true one as long as that fits 16 bits. -/
theorem toNat_dataLen_eq_iff (len : Nat) : (dataLen len).toNat = 4 + 5 + len ↔ len ≤ 65526 := by
  rw [toNat_dataLen, Nat.mod_eq_iff_lt (by decide)]
  omega

/-- R30: a half word from its two bytes, low byte first. -/
theorem toNat_low_add_high (v : Half) :
    (v.extractLsb' 0 8).toNat + 256 * (v.extractLsb' 8 8).toNat = v.toNat := by
  simp only [BitVec.extractLsb'_toNat, Nat.shiftRight_eq_div_pow]
  have hv := v.isLt
  omega

/-! ### The two operations -/

theorem execHeTsmux_of_started (ovr : Option Long) (time : TimeAnswer) (hs : s.phase ≠ .beforeInit) :
    execHeTsmux ovr time s = .next (reply s (.micros (tsMux s.cfg ovr time))) :=
  afterInit_started s _ hs

theorem execHeEncode_of_started (opcode : Half) (len : Nat) (ovr : Option Long) (time : TimeAnswer)
    (hs : s.phase ≠ .beforeInit) : execHeEncode opcode len ovr time s =
      .next (reply s (.header (encodeHeader s.cfg opcode len ovr time))) :=
  afterInit_started s _ hs

end Sys2Proof.Machine

open Sys2Proof Sys2Proof.Machine

/-- Settles O30: the answer is `tsMux`, whose three branches are R91's. -/
theorem timestampMultiplexer : Obligations.TimestampMultiplexer := by
  intro ovr time s hs
  refine ⟨tsMux s.cfg ovr time, execHeTsmux_of_started ovr time hs, ?override, ?wall, ?mono⟩
  case override => rintro t0 rfl; exact tsMux_override ..
  case wall => rintro rfl hok hfloor; exact toNat_tsMux_wall hok hfloor
  case mono => rintro rfl h; exact tsMux_mono h

/-- Settles O31: the header's length field is `dataLen` and its timestamp `tickOf` of the multiplexer's. -/
theorem headerEncoder : Obligations.HeaderEncoder :=
  fun opcode len ovr time s hs =>
    ⟨encodeHeader s.cfg opcode len ovr time, dataLen len, tickOf (tsMux s.cfg ovr time),
      execHeEncode_of_started opcode len ovr time hs, toNat_dataLen len, toNat_tickOf _, rfl⟩

/-- Settles O32: bytes 0 and 1 of the header are the two halves of `dataLen`, and byte 2 is `hdrLen`. -/
theorem dataLengthIsExactWithinTheBudget : Obligations.DataLengthIsExactWithinTheBudget :=
  fun _ _ len _ _ =>
    ⟨rfl, toNat_dataLen len, toNat_dataLen_eq_iff len, toNat_low_add_high (dataLen len), rfl⟩
end

section
/-! SUPPORT. The requests and the framer's steps as equations in the cases that Laws/Queue.lean leaves
(R110 to R117): where each is enabled, and where it is not. -/

namespace Sys2Proof.Machine

open Sys2Proof

variable {s : State} {p : Nat} {hdr : Vector Byte 12} {pay : List Byte} {ovf : Bool} {b : Byte}

/-! ### Acceptance -/

theorem acceptRequest_of_idle (opcode : Half) (payload : List Byte) (time : TimeAnswer)
    (hr : s.req[p]? = some .idle) : acceptRequest p opcode payload time s =
      .next (reply (acceptedState p opcode payload time s) (.accepted p)) := by
  simp only [acceptRequest, hr, acceptedState]

theorem acceptRequest_of_busy (opcode : Half) (payload : List Byte) (time : TimeAnswer)
    (hr : s.req[p]? = some (.pending hdr pay ovf)) :
    acceptRequest p opcode payload time s = .next (reply s .notEnabled) := by
  simp only [acceptRequest, hr]

theorem execMsSend_of_started (p : Nat) (opcode : Half) (payload : List Byte) (time : TimeAnswer)
    (hs : s.phase ≠ .beforeInit) :
    execMsSend p opcode payload time s = acceptRequest p opcode payload time s :=
  afterInit_started s _ hs

/-! ### The grant -/

theorem execMsAcquire_of_pending (hs : s.phase ≠ .beforeInit) (hl : s.lockOwner = none)
    (hr : s.req[p]? = some (.pending hdr pay ovf)) :
    execMsAcquire p s = .next (reply { s with lockOwner := some p, pos := 0 } (.granted p)) := by
  simp only [execMsAcquire, afterInit_started s _ hs, hr, hl]

theorem execMsAcquire_of_idle (hs : s.phase ≠ .beforeInit) (hr : s.req[p]? = some .idle) :
    execMsAcquire p s = .next (reply s .notEnabled) := by
  simp only [execMsAcquire, afterInit_started s _ hs, hr]

/-- R114: under a held lock there is no grant, whatever the port's request. -/
theorem execMsAcquire_of_locked {q : Nat} (hs : s.phase ≠ .beforeInit) (hp : p < s.req.length)
    (hl : s.lockOwner = some q) : execMsAcquire p s = .next (reply s .notEnabled) := by
  cases hr : s.req[p] with
  | idle => exact execMsAcquire_of_idle hs (List.getElem?_eq_some_iff.2 ⟨hp, hr⟩)
  | pending hdr pay ovf =>
    simp only [execMsAcquire, afterInit_started s _ hs, List.getElem?_eq_getElem hp, hr, hl]

/-! ### The owner's record, and where it ends -/

theorem ownerRecord_of_free (hl : s.lockOwner = none) : ownerRecord s = none := by
  simp only [ownerRecord, hl]

theorem ownerRecord_of_owner (hl : s.lockOwner = some p)
    (hr : s.req[p]? = some (.pending hdr pay ovf)) : ownerRecord s = some (recordOf hdr pay) :=
  ownerRecord_eq_some.2 ⟨p, hdr, pay, ovf, hl, hr, rfl⟩

theorem nextByte_of_free (hl : s.lockOwner = none) : nextByte s = none := by
  simp only [nextByte, ownerRecord_of_free hl]

theorem nextByte_of_end (hl : s.lockOwner = some p) (hr : s.req[p]? = some (.pending hdr pay ovf))
    (hpos : s.pos = 12 + pay.length) : nextByte s = none := by
  simp [nextByte, ownerRecord_of_owner hl hr, hpos]

theorem finishedOwner_of_free (hl : s.lockOwner = none) : finishedOwner s = none := by
  simp only [finishedOwner, hl]

theorem finishedOwner_of_not_end (hl : s.lockOwner = some p)
    (hr : s.req[p]? = some (.pending hdr pay ovf)) (hpos : s.pos ≠ 12 + pay.length) :
    finishedOwner s = none := by
  simp [finishedOwner, hl, ownerRecord_of_owner hl hr, hpos]

/-! ### The push and the release -/

theorem execMsEmit_of_notEnabled (hs : s.phase ≠ .beforeInit) (hb : nextByte s = none) :
    execMsEmit s = .next (reply s .notEnabled) := by
  simp only [execMsEmit, afterInit_started s _ hs, hb]

/-- An EMIT into a full buffer holds, whether or not `head` is a slot number. -/
theorem execMsEmit_of_full (hs : s.phase ≠ .beforeInit) (hb : nextByte s = some b)
    (hf : isFull s = true) : execMsEmit s = .next (reply (kick s) .hold) := by
  simp [execMsEmit, hs, hb, pushAttempt, hf]

theorem execMsEmit_of_not_full (hs : s.phase ≠ .beforeInit) (hl : s.lockOwner = some p)
    (hr : s.req[p]? = some (.pending hdr pay ovf)) (hb : (recordOf hdr pay)[s.pos]? = some b)
    (hf : isFull s = false) (hh : s.head.toNat < capOf s.cfg) :
    execMsEmit s = .next (reply { pushedState b s with pos := s.pos + 1 } .done) := by
  simpa [hf] using execMsEmit_of_owner hs hl hr hb hh

theorem execMsRelease_of_notEnabled (hs : s.phase ≠ .beforeInit) (hfin : finishedOwner s = none) :
    execMsRelease s = .next (reply s .notEnabled) := by
  simp only [execMsRelease, afterInit_started s _ hs, hfin]

end Sys2Proof.Machine

open Sys2Proof Sys2Proof.Machine

/-- Settles O35: the two cases of an acceptance on an existing port. -/
theorem sendIsAccepted : Obligations.SendIsAccepted := by
  intro p opcode payload time s hs
  have hsend := execMsSend_of_started p opcode payload time hs
  exact ⟨fun hr => hsend.trans (acceptRequest_of_idle opcode payload time hr),
    fun _ _ _ hr => hsend.trans (acceptRequest_of_busy opcode payload time hr)⟩

/-- Settles O36: both requests come to one acceptance, and the concatenation's length is the sum. -/
theorem fragmentedSendIsAccepted : Obligations.FragmentedSendIsAccepted := by
  intro p opcode frags time s
  refine ⟨rfl, fun hs hr => ?_⟩
  rw [← List.length_flatten]
  exact (sendIsAccepted p opcode frags.flatten time s hs).1 hr

/-- Settles O40: the grant, and its two conditions that can fail on an existing port. -/
theorem acquireGrantsAFreeLock : Obligations.AcquireGrantsAFreeLock := by
  intro p s hs
  refine ⟨fun _ _ _ => execMsAcquire_of_pending hs, ?notEnabled⟩
  case notEnabled =>
    rintro hp (hheld | hidle)
    · obtain ⟨q, hl⟩ := Option.ne_none_iff_exists'.1 hheld
      exact execMsAcquire_of_locked hs hp hl
    · exact execMsAcquire_of_idle hs hidle

/-- Settles O42: the release, and its two conditions that can fail. -/
theorem releaseCompletesTheRequest : Obligations.ReleaseCompletesTheRequest := by
  intro s hs
  refine ⟨fun _ _ _ _ => execMsRelease_of_owner hs, ?notEnabled⟩
  case notEnabled =>
    rintro (hfree | ⟨p, hdr, pay, ovf, hl, hr, hpos⟩)
    · exact execMsRelease_of_notEnabled hs (finishedOwner_of_free hfree)
    · exact execMsRelease_of_notEnabled hs (finishedOwner_of_not_end hl hr hpos)

/-- Settles O41: short of the record's end the two cases of a push attempt of byte `pos`; elsewhere there
is no byte to push. -/
theorem emitPushesTheNextByte : Obligations.EmitPushesTheNextByte := by
  intro s hs
  refine ⟨fun p hdr pay ovf hl hr hpos => ?enabled, ?notEnabled⟩
  case enabled =>
    rw [← length_recordOf hdr pay] at hpos
    have hb := List.getElem?_eq_getElem hpos
    refine ⟨_, hb, execMsEmit_of_full hs (nextByte_of_owner hl hr hb), fun hf hh => ?done⟩
    case done =>
      exact ⟨_, execMsEmit_of_not_full hs hl hr hb hf hh, rfl, Memory.get_put_self _ _ _,
        fun _ hne => Memory.get_put_of_ne _ _ hne⟩
  case notEnabled =>
    rintro (hfree | ⟨p, hdr, pay, ovf, hl, hr, hpos⟩)
    · exact execMsEmit_of_notEnabled hs (nextByte_of_free hfree)
    · exact execMsEmit_of_notEnabled hs (nextByte_of_end hl hr hpos)
end

section
/-! SUPPORT. The framer's control flow, read off `Effect` (R118): one lemma per state of the lock. -/

namespace Sys2Proof.Machine

open Sys2Proof

variable {i : Instr} {s t : State} {p : Nat}

/-- R118: only a grant leaves FREE. -/
theorem Effect.from_free (he : Effect s i t) (hi : i ≠ .init) (hl : s.lockOwner = none) :
    (t.lockOwner = none ∧ t.pos = s.pos) ∨
    ∃ p hdr pay ovf, i = .msAcquire p ∧ s.req[p]? = some (.pending hdr pay ovf) ∧
      t.lockOwner = some p ∧ t.pos = 0 := by
  cases he with
  | initDone => exact absurd rfl hi
  | granted _ hr => exact .inr ⟨_, _, _, _, rfl, hr, rfl, rfl⟩
  | released hheld | emitDone hheld => cases hl.symm.trans hheld
  | _ => exact .inl ⟨hl, rfl⟩

/-- R118, R115: from a held lock an EMIT that is DONE moves `pos`, a release frees the lock, and every
other step leaves both alone. -/
theorem Effect.from_held (he : Effect s i t) (hi : i ≠ .init) (hl : s.lockOwner = some p) :
    (t.lockOwner = some p ∧ t.pos = s.pos ∧ ¬ (i = .msEmit ∧ t.answer = .done)) ∨
    (t.lockOwner = some p ∧ i = .msEmit ∧ t.answer = .done ∧ t.pos = s.pos + 1 ∧
      ∃ hdr pay ovf, s.req[p]? = some (.pending hdr pay ovf) ∧ s.pos < 12 + pay.length) ∨
    (t.lockOwner = none ∧ t.pos = s.pos ∧ i = .msRelease ∧ ∃ hdr pay ovf,
      s.req[p]? = some (.pending hdr pay ovf) ∧ s.pos = 12 + pay.length) := by
  cases he with
  | initDone => exact absurd rfl hi
  | granted hfree => cases hfree.symm.trans hl
  | emitDone hq hr hb =>
    cases hq.symm.trans hl
    have hpos := (List.getElem?_eq_some_iff.1 hb).1
    rw [length_recordOf] at hpos
    exact .inr (.inl ⟨hl, rfl, rfl, rfl, _, _, _, hr, hpos⟩)
  | released hq hr hpos =>
    cases hq.symm.trans hl
    exact .inr (.inr ⟨rfl, rfl, rfl, _, _, _, hr, hpos⟩)
  | pushDone => exact .inl ⟨hl, rfl, fun h => nomatch h.1⟩
  | _ => exact .inl ⟨hl, rfl, fun h => nomatch h.2⟩

end Sys2Proof.Machine

open Sys2Proof Sys2Proof.Machine

/-- Settles O43: the two states of the lock. -/
theorem framerControlFlow : Obligations.FramerControlFlow :=
  fun _ _ _ hi h => ⟨(exec_effect h).from_free hi, fun _ => (exec_effect h).from_held hi⟩
end

section
/-! SUPPORT. Whole-record atomicity (R119, R120): the bytes pushed and the rest of the owner's record
together are, along a run from reset, the records granted. -/

namespace Sys2Proof.Machine

open Sys2Proof

variable {i : Instr} {is : List Instr} {s t : State} {p : Nat} {hdr : Vector Byte 12}
  {pay : List Byte} {ovf : Bool}

/-! ### The record that a step grants -/

theorem grantedBy_msAcquire (hl : s.lockOwner = none) (hr : s.req[p]? = some (.pending hdr pay ovf)) :
    grantedBy (.msAcquire p) s = [recordOf hdr pay] := by
  simp only [grantedBy, hl, hr]

theorem grantedBy_eq_nil (hi : ∀ p, i ≠ .msAcquire p) : grantedBy i s = [] := by
  cases i with
  | msAcquire p => exact absurd rfl (hi p)
  | _ => rfl

/-- R114: a record is granted by a grant of the free lock to the port where it is pending. -/
theorem of_mem_grantedBy {r : List Byte} (h : r ∈ grantedBy i s) : ∃ p hdr pay ovf,
    i = .msAcquire p ∧ s.lockOwner = none ∧ s.req[p]? = some (.pending hdr pay ovf) ∧
      r = recordOf hdr pay := by
  cases i with
  | msAcquire p =>
    simp only [grantedBy] at h
    split at h
    · next hdr pay ovf hl hr => exact ⟨p, hdr, pay, ovf, rfl, hl, hr, List.mem_singleton.1 h⟩
    · cases h
  | _ => cases h

/-- A step that is not enabled grants nothing. -/
theorem grantedBy_of_notEnabled (hs : s.phase ≠ .beforeInit)
    (h : exec i s = .next (reply s .notEnabled)) : grantedBy i s = [] := by
  rw [List.eq_nil_iff_forall_not_mem]
  intro r hr
  obtain ⟨p, hdr, pay, ovf, rfl, hl, hreq, -⟩ := of_mem_grantedBy hr
  have hgrant : exec (.msAcquire p) s = _ := execMsAcquire_of_pending hs hl hreq
  cases congrArg State.answer (Host.Outcome.next.inj (h.symm.trans hgrant))

/-! ### The rest of the owner's record -/

/-- R44: an acceptance is another port's than the owner's, whose request is pending. -/
theorem StateInv.remaining_accepted (hs : StateInv s) (opcode : Half) (payload : List Byte)
    (time : TimeAnswer) (hidle : s.req[p]? = some .idle) :
    remaining (acceptedState p opcode payload time s) = remaining s := by
  cases hl : s.lockOwner with
  | none => rw [remaining_of_free hl]; exact remaining_of_free hl
  | some q =>
    obtain ⟨hdr, pay, ovf, hr, -⟩ := hs.owner q hl
    have hne : p ≠ q := by rintro rfl; cases hidle.symm.trans hr
    rw [remaining_of_owner hl hr]
    exact remaining_of_owner hl ((List.getElem?_set_ne hne).trans hr)

/-- R116: the byte pushed is the first that was still to be pushed. -/
theorem remaining_emitted {b : Byte} (hl : s.lockOwner = some p)
    (hr : s.req[p]? = some (.pending hdr pay ovf)) (hb : (recordOf hdr pay)[s.pos]? = some b) :
    remaining s = b :: remaining { pushedState b s with pos := s.pos + 1 } := by
  obtain ⟨hpos, rfl⟩ := List.getElem?_eq_some_iff.1 hb
  rw [remaining_of_owner hl hr, List.drop_eq_getElem_cons hpos]
  exact congrArg _ (remaining_of_owner (s := { pushedState _ s with pos := s.pos + 1 }) hl hr).symm

/-- R117: at the record's end nothing is left. -/
theorem remaining_of_end (hl : s.lockOwner = some p) (hr : s.req[p]? = some (.pending hdr pay ovf))
    (hpos : s.pos = 12 + pay.length) : remaining s = [] := by
  rw [remaining_of_owner hl hr, hpos, ← length_recordOf hdr pay, List.drop_length]

/-! ### One step -/

/-- A step takes what it pushes from the rest of the owner's record, and a grant begins that rest. -/
theorem StateInv.pushed_append_remaining (hs : StateInv s) (hi : i ≠ .init)
    (hpush : ∀ b, i ≠ .rbPush b) (h : exec i s = .next t) :
    pushedBy i s ++ remaining t = remaining s ++ (grantedBy i s).flatten := by
  cases exec_effect h with
  | initDone => exact absurd rfl hi
  | pushDone | pushHold => exact absurd rfl (hpush _)
  | disabled _ hagent =>
    rw [hs.pushedBy_of_notEnabled h hagent, grantedBy_of_notEnabled hs.started h]
    exact (List.append_nil _).symm
  | granted hl hr =>
    rw [pushedBy_eq_nil hpush nofun, remaining_of_free hl, grantedBy_msAcquire hl hr,
      List.flatten_singleton]
    exact remaining_of_owner rfl hr
  | emitDone hl hr hb hf =>
    rw [pushedBy_msEmit hf, nextByte_of_owner hl hr hb, remaining_emitted hl hr hb]
    exact (List.append_nil _).symm
  | emitHold _ _ _ hf => rw [pushedBy_of_full _ hf]; exact (List.append_nil _).symm
  | released hl hr hpos =>
    rw [pushedBy_eq_nil hpush nofun, List.nil_append, remaining_of_end hl hr hpos]
    exact remaining_of_free rfl
  | accepted hrole hidle =>
    rw [pushedBy_eq_nil hpush (by rintro rfl; cases hrole),
      grantedBy_eq_nil (by rintro q rfl; cases hrole)]
    exact (hs.remaining_accepted _ _ _ hidle).trans (List.append_nil _).symm
  | _ => rw [pushedBy_eq_nil hpush nofun]; exact (List.append_nil _).symm

/-- R119: the bytes pushed and those still to push grow by exactly the record granted. -/
theorem StateInv.records_exec (hs : StateInv s) (hi : i ≠ .init) (hpush : ∀ b, i ≠ .rbPush b)
    (h : exec i s = .next t) :
    emitted t ++ remaining t = emitted s ++ remaining s ++ (grantedBy i s).flatten := by
  rw [hs.emitted_exec hi h, List.append_assoc, hs.pushed_append_remaining hi hpush h,
    ← List.append_assoc]

/-! ### Runs -/

theorem grantsAlong_cons (h : exec i s = .next t) :
    grantsAlong (i :: is) s = grantedBy i s ++ grantsAlong is t := by
  simp only [grantsAlong, h]

/-- R6: neither `INIT` nor a push by itself is an agent's step. -/
theorem isAgentStep_ne (hi : isAgentStep i = true) : i ≠ .init ∧ ∀ b, i ≠ .rbPush b := by
  constructor
  · rintro rfl; cases hi
  · rintro b rfl; cases hi

/-- R119, R120 along a run. -/
theorem StateInv.records_run (hs : StateInv s) (hi : ∀ i ∈ is, isAgentStep i = true)
    (h : runSteps is s = .next t) :
    emitted t ++ remaining t = emitted s ++ remaining s ++ (grantsAlong is s).flatten := by
  induction is generalizing s with
  | nil => cases h; exact (List.append_nil _).symm
  | cons i is ih =>
    obtain ⟨s', hstep, hrest⟩ := runSteps_cons_eq_next.1 h
    rw [List.forall_mem_cons] at hi
    obtain ⟨hinit, hpush⟩ := isAgentStep_ne hi.1
    rw [ih (hs.effect (exec_effect hstep)) hi.2 hrest, hs.records_exec hinit hpush hstep,
      grantsAlong_cons hstep, List.flatten_append, List.append_assoc]

/-- R51: a record granted along a run was staged, so its header declares the length of its payload. -/
theorem StateInv.record_of_mem_grantsAlong (hs : StateInv s) {r : List Byte}
    (hr : r ∈ grantsAlong is s) :
    ∃ opcode ts32 pay, r = (headerBytes s.cfg (dataLen pay.length) opcode ts32).toList ++ pay := by
  induction is generalizing s with
  | nil => cases hr
  | cons i is ih =>
    cases hstep : exec i s with
    | fault | refused => simp [grantsAlong, hstep] at hr
    | next t =>
      have he := exec_effect hstep
      rw [grantsAlong_cons hstep, List.mem_append] at hr
      rcases hr with hnow | hlater
      · obtain ⟨p, hdr, pay, ovf, -, -, hreq, rfl⟩ := of_mem_grantedBy hnow
        obtain ⟨-, -, opcode, ts32, rfl⟩ := hs.staged p hdr pay ovf hreq
        exact ⟨opcode, ts32, pay, rfl⟩
      · rw [← he.cfg_eq]
        exact ih (hs.effect he) hlater

end Sys2Proof.Machine

open Sys2Proof Sys2Proof.Machine

/-- Settles O46: from what a step pushes and what it grants. -/
theorem stepKeepsRecordsWhole : Obligations.StepKeepsRecordsWhole :=
  fun _ _ _ hs hi hpush h => hs.records_exec hi hpush h

/-- Settles O47: along a run from reset `wire`, the queue and the rest of the owner's record are the
records granted; in a quiescent state the queue and the rest are empty. -/
theorem wireIsWholeRecordsInGrantOrder : Obligations.WireIsWholeRecordsInGrantOrder := by
  intro c is t hc hi h
  have hreset := stateInv_resetOf hc
  have hrecords : t.wire ++ queued t ++ remaining t = (grantsAlong is (State.resetOf c)).flatten := by
    have hrun := hreset.records_run hi h
    have hnone : remaining (State.resetOf c) = [] := remaining_of_free rfl
    rwa [emitted_resetOf hc, hnone, List.append_nil, List.nil_append] at hrun
  refine ⟨⟨queued t ++ remaining t, ?front⟩, fun _ => hreset.record_of_mem_grantsAlong, ?quiescent⟩
  case front => rw [← hrecords, List.append_assoc]
  case quiescent =>
    rintro ⟨-, hfree, hempty, -⟩
    rw [← hrecords, (hreset.run h).queued_eq_nil_iff.2 hempty, remaining_of_free hfree,
      List.append_nil, List.append_nil]
end

section
/-! SUPPORT. Bounded completion (R122, R82; log entry 16): from a held lock the framer and the transmitter
can bring the owner's request to its end, with at most one pull before each EMIT. -/

namespace Sys2Proof.Machine

open Sys2Proof

variable {i : Instr} {s t : State} {p n : Nat} {hdr : Vector Byte 12} {pay : List Byte} {ovf : Bool}

/-- At most `n` EMITs, pulls that keep R144, and releases complete port `p` from `s`. -/
def CanComplete (p n : Nat) (s : State) : Prop :=
  ∃ (is : List Instr) (t : State), is.length ≤ n ∧
    (∀ i ∈ is, i = .msEmit ∨ i = .rbPull ∨ i = .msRelease) ∧ pullsAllowed is s ∧
    runSteps is s = .next t ∧ t.answer = .completed p 0 ∧ t.lockOwner = none ∧
    t.req[p]? = some .idle

theorem CanComplete.mono {m : Nat} (hc : CanComplete p m s) (hmn : m ≤ n) : CanComplete p n s := by
  obtain ⟨is, t, hlen, hrest⟩ := hc
  exact ⟨is, t, hlen.trans hmn, hrest⟩

/-- One step more in front. -/
theorem CanComplete.cons (hi : i = .msEmit ∨ i = .rbPull ∨ i = .msRelease) (hpull : pullAllowed i s)
    (h : exec i s = .next t) (hc : CanComplete p n t) : CanComplete p (n + 1) s := by
  obtain ⟨is, u, hlen, his, hpulls, hrun, hdone⟩ := hc
  have hpulls' : pullsAllowed (i :: is) s := ⟨hpull, by rw [h]; exact hpulls⟩
  exact ⟨i :: is, u, Nat.succ_le_succ hlen, List.forall_mem_cons.2 ⟨hi, his⟩, hpulls',
    runSteps_cons_eq_next.2 ⟨t, h, hrun⟩, hdone⟩

/-- R117: at the record's end the release completes. -/
theorem canComplete_of_end (hs : s.phase ≠ .beforeInit) (hl : s.lockOwner = some p)
    (hr : s.req[p]? = some (.pending hdr pay ovf)) (hpos : s.pos = 12 + pay.length) :
    CanComplete p 1 s := by
  have hrelease : exec .msRelease s = _ := execMsRelease_of_owner hs hl hr hpos
  have hport : p < s.req.length := (List.getElem?_eq_some_iff.1 hr).1
  refine ⟨[.msRelease], _, le_rfl, by simp, ⟨nofun, ?_⟩,
    runSteps_cons_eq_next.2 ⟨_, hrelease, rfl⟩, rfl, rfl, List.getElem?_set_self hport⟩
  rw [hrelease]; trivial

/-- R80, R144: from a full buffer a pull is allowed, and it makes room. -/
theorem StateInv.pull_of_full (hs : StateInv s) (hf : isFull s = true) :
    pullAllowed .rbPull s ∧ ∃ a, exec .rbPull s = .next (reply (pulledState s) a) ∧
      isFull (reply (pulledState s) a) = false := by
  have hsome : isEmpty s = false := isEmpty_of_isFull hs.params hs.headSlot hf
  refine ⟨fun _ => hs.drain fun heq => ?_, _, execRbPull_of_not_empty hs.started hsome hs.tailSlot,
    isFull_pulled hs.params hs.tailSlot hf⟩
  cases hsome.symm.trans ((isEmpty_eq_true_iff s).2 heq)

/-- R116: with room in the buffer an EMIT pushes the owner's next byte. -/
theorem StateInv.emit_of_not_full (hs : StateInv s) (hl : s.lockOwner = some p)
    (hr : s.req[p]? = some (.pending hdr pay ovf)) (hpos : s.pos < 12 + pay.length)
    (hf : isFull s = false) : ∃ t, exec .msEmit s = .next t ∧ StateInv t ∧ t.lockOwner = some p ∧
      t.req[p]? = some (.pending hdr pay ovf) ∧ t.pos = s.pos + 1 := by
  rw [← length_recordOf hdr pay] at hpos
  have hemit : exec .msEmit s = _ :=
    execMsEmit_of_not_full hs.started hl hr (List.getElem?_eq_getElem hpos) hf hs.headSlot
  exact ⟨_, hemit, hs.effect (exec_effect hemit), hl, hr, rfl⟩

/-- By induction on the number `d` of bytes still to push: each costs one EMIT, and one pull before it if
the buffer is full. -/
theorem StateInv.canComplete (hs : StateInv s) (d : Nat) (hl : s.lockOwner = some p)
    (hr : s.req[p]? = some (.pending hdr pay ovf)) (hpos : s.pos + d = 12 + pay.length) :
    CanComplete p (2 * d + 1) s := by
  induction d generalizing s with
  | zero => exact canComplete_of_end hs.started hl hr hpos
  | succ d ih =>
    have emit {u : State} (hu : StateInv u) (hl : u.lockOwner = some p)
        (hr : u.req[p]? = some (.pending hdr pay ovf)) (hpos : u.pos + (d + 1) = 12 + pay.length)
        (hf : isFull u = false) : CanComplete p (2 * d + 2) u := by
      obtain ⟨t, hemit, ht, hlt, hrt, hpost⟩ := hu.emit_of_not_full hl hr (by omega) hf
      exact .cons (.inl rfl) nofun hemit (ih ht hlt hrt (by omega))
    cases hf : isFull s with
    | false => exact (emit hs hl hr hpos hf).mono (by omega)
    | true =>
      obtain ⟨hallowed, a, hpull, hroom⟩ := hs.pull_of_full hf
      exact .cons (.inr (.inl rfl)) hallowed hpull
        (emit (hs.effect (exec_effect hpull)) hl hr hpos hroom)

end Sys2Proof.Machine

open Sys2Proof Sys2Proof.Machine

/-- Settles O49: at most `12 + L` bytes of the record are still to be pushed. -/
theorem grantedRequestsCanComplete : Obligations.GrantedRequestsCanComplete := by
  intro s p hdr pay ovf hs hl hr
  obtain ⟨hdr', pay', ovf', hr', hpos⟩ := hs.owner p hl
  cases hr.symm.trans hr'
  exact (hs.canComplete (12 + pay.length - s.pos) hl hr (Nat.add_sub_cancel' hpos)).mono (by omega)
end

section
/-! SUPPORT. The registration of an index (R130 to R132): it refuses a name outside its domain and is else
the send of an index record; and the form of the record's name field (R131). -/

namespace Sys2Proof.Machine

open Sys2Proof

variable {s : State} {name : List Byte}

/-! ### The request -/

/-- R130: a name in its domain. -/
theorem execIxRegisterIndex_of_nulFree (p : Nat) (busId : Byte) (address : Vector Byte 6)
    (time : TimeAnswer) (hname : ∀ b ∈ name, b ≠ 0x00) :
    execIxRegisterIndex p busId address name time s =
      execMsSend p s.cfg.opcNewIndex (indexPayload s.cfg busId address name) time s := by
  rw [execIxRegisterIndex, if_pos ((nulFree_eq_true_iff name).2 hname), execMsSend]

/-- R131 corner case (e): a name outside its domain, whatever the port. -/
theorem execIxRegisterIndex_of_nul (p : Nat) (busId : Byte) (address : Vector Byte 6)
    (time : TimeAnswer) (hs : s.phase ≠ .beforeInit) (hname : 0x00 ∈ name) :
    execIxRegisterIndex p busId address name time s = .refused .nameHasNul := by
  have hnul : ¬ nulFree name = true := fun h => (nulFree_eq_true_iff name).1 h 0x00 hname rfl
  rw [execIxRegisterIndex, if_neg hnul, afterInit_started s _ hs]

/-! ### The name field -/

theorem nameField_of_short {w : Nat} (h : name.length < w) :
    nameField w name = name ++ List.replicate (w - name.length) 0x00 :=
  if_neg (Nat.not_le.2 h)

theorem nameField_of_long {w : Nat} (h : w ≤ name.length) :
    nameField w name = name.take (w - 1) ++ [0x00] :=
  if_pos h

theorem getElem?_nameField_last (n : Nat) (name : List Byte) :
    (nameField (n + 1) name)[n]? = some 0x00 := by
  rw [nameField_succ, List.getElem?_append_right (by simp)]
  simp

/-- No byte of the name beyond its first NAME_W - 1 is used. -/
theorem nameField_take (n : Nat) (name : List Byte) :
    nameField (n + 1) (name.take n) = nameField (n + 1) name := by
  have hfill : n - min n name.length = n - name.length := by omega
  rw [nameField_succ, nameField_succ, List.take_append, List.take_append, List.take_take,
    Nat.min_self, List.length_take, hfill]

end Sys2Proof.Machine

open Sys2Proof Sys2Proof.Machine

/-- Settles O38: the refusal, and the two cases of the field's definition; two names that agree in their
first NAME_W - 1 bytes both have the field of those bytes. -/
theorem nameFieldIsNullTerminated : Obligations.NameFieldIsNullTerminated := by
  refine ⟨fun p busId address _ time _ => execIxRegisterIndex_of_nul p busId address time,
    fun w name hw => ?field⟩
  case field =>
    obtain ⟨n, rfl⟩ := Nat.exists_eq_add_of_le' hw
    refine ⟨length_nameField hw name, getElem?_nameField_last n name, nameField_of_short,
      nameField_of_long, fun other hagree => ?_⟩
    calc nameField (n + 1) other = nameField (n + 1) (other.take n) := (nameField_take n other).symm
      _ = nameField (n + 1) (name.take n) := congrArg (nameField (n + 1)) hagree
      _ = nameField (n + 1) name := nameField_take n name

/-- Settles O37: on a name without 0x00 the two cases of the send of the index record, whose payload is
`8 + NAME_W` bytes long. -/
theorem indexRegistrationIsAccepted : Obligations.IndexRegistrationIsAccepted := by
  intro p busId address name time s hs
  obtain ⟨hidle, hbusy⟩ :=
    sendIsAccepted p s.cfg.opcNewIndex (indexPayload s.cfg busId address name) time s hs
  refine ⟨fun hname hw hr => ?idle, fun hname _ _ _ hr => ?busy, ?nul⟩
  case idle =>
    rw [length_indexPayload hw] at hidle
    exact (execIxRegisterIndex_of_nulFree p busId address time hname).trans (hidle hr)
  case busy =>
    exact (execIxRegisterIndex_of_nulFree p busId address time hname).trans (hbusy _ _ _ hr)
  case nul =>
    rintro ⟨_, hmem, rfl⟩
    exact execIxRegisterIndex_of_nul p busId address time hs hmem
end

section
/-! SUPPORT. The producer requests as one form (R110, R111, R130), and where a step faults (R140, R37). -/

namespace Sys2Proof.Machine

open Sys2Proof

variable {i : Instr} {s : State} {p : Nat} {f : Fault}

/-! ### The requests -/

/-- A request is the acceptance of an opcode and a payload that its operands and the parameters fix, or it
is refused for its name, in every state with these parameters. -/
theorem exec_request_cases (hi : roleOf i = .producer p) (s : State) :
    (∃ opcode payload time, ∀ u : State, u.cfg = s.cfg →
      exec i u = afterInit u (acceptRequest p opcode payload time u)) ∨
    (∀ u : State, exec i u = afterInit u (.refused .nameHasNul)) := by
  cases i with
  | msSend q opcode payload time =>
    cases hi
    exact .inl ⟨opcode, payload, time, fun _ _ => rfl⟩
  | msSendFrag q opcode frags time =>
    cases hi
    exact .inl ⟨opcode, fragsPayload frags, time, fun _ _ => rfl⟩
  | ixRegisterIndex q busId address name time =>
    cases hi
    by_cases hname : nulFree name = true
    · refine .inl ⟨s.cfg.opcNewIndex, indexPayload s.cfg busId address name, time, fun u hcfg => ?_⟩
      simp only [exec, execIxRegisterIndex, if_pos hname, hcfg]
    · exact .inr fun u => by simp only [exec, execIxRegisterIndex, if_neg hname]
  | _ => cases hi

theorem acceptRequest_ne_fault (p : Nat) (opcode : Half) (payload : List Byte) (time : TimeAnswer)
    (s : State) : acceptRequest p opcode payload time s ≠ .fault f := by
  rcases acceptRequest_cases p opcode payload time s with ⟨-, e⟩ | ⟨-, e⟩ | ⟨-, e⟩ <;> simp [e]

theorem exec_request_ne_fault (hi : roleOf i = .producer p) : exec i s ≠ .fault f := by
  intro h
  rcases exec_request_cases hi s with ⟨opcode, payload, time, e⟩ | e
  · rw [e s rfl] at h
    exact acceptRequest_ne_fault p opcode payload time s (afterInit_eq_fault.1 h).2
  · rw [e s] at h
    cases (afterInit_eq_fault.1 h).2

/-! ### The operations that access a slot -/

theorem pushAttempt_eq_noSlot {b : Byte} (h : pushAttempt b s = .noSlot) :
    capOf s.cfg ≤ s.head.toNat := by
  rcases pushAttempt_cases b s with ⟨-, e⟩ | ⟨-, hh, -⟩ | ⟨-, -, e⟩
  · cases e.symm.trans h
  · exact Nat.not_lt.1 hh
  · cases e.symm.trans h

theorem pullOne_eq_none (h : pullOne s = none) : capOf s.cfg ≤ s.tail.toNat := by
  rcases pullOne_cases s with ⟨-, e⟩ | ⟨-, ht, -⟩ | ⟨-, -, e⟩
  · cases e.symm.trans h
  · exact Nat.not_lt.1 ht
  · cases e.symm.trans h

theorem execRbPush_eq_fault {b : Byte} (h : execRbPush b s = .fault f) :
    capOf s.cfg ≤ s.head.toNat := by
  obtain ⟨-, h⟩ := afterInit_eq_fault.1 h
  split at h
  · cases e : pushAttempt b s with
    | noSlot => exact pushAttempt_eq_noSlot e
    | done | hold => rw [e] at h; cases h
  · cases h

theorem execRbPull_eq_fault (h : execRbPull s = .fault f) : capOf s.cfg ≤ s.tail.toNat := by
  obtain ⟨-, h⟩ := afterInit_eq_fault.1 h
  cases e : pullOne s with
  | none => exact pullOne_eq_none e
  | some => rw [e] at h; cases h

theorem execMsEmit_eq_fault (h : execMsEmit s = .fault f) : capOf s.cfg ≤ s.head.toNat := by
  obtain ⟨-, h⟩ := afterInit_eq_fault.1 h
  cases hb : nextByte s with
  | none => rw [hb] at h; cases h
  | some b =>
    simp only [hb] at h
    cases e : pushAttempt b s with
    | noSlot => exact pushAttempt_eq_noSlot e
    | done | hold => rw [e] at h; cases h

/-! ### The others -/

theorem execInit_ne_fault : execInit s ≠ .fault f := by
  cases hp : s.phase <;> simp [execInit, hp]

theorem execMsAcquire_ne_fault : execMsAcquire p s ≠ .fault f := by
  intro h
  obtain ⟨-, h⟩ := afterInit_eq_fault.1 h
  split at h
  · cases h
  · cases h
  · split at h <;> cases h

theorem execMsRelease_ne_fault : execMsRelease s ≠ .fault f := by
  intro h
  obtain ⟨-, h⟩ := afterInit_eq_fault.1 h
  split at h <;> cases h

/-- R37, log entry 9: a step faults only through an index that holds no slot number. -/
theorem exec_eq_fault (h : exec i s = .fault f) :
    capOf s.cfg ≤ s.head.toNat ∨ capOf s.cfg ≤ s.tail.toNat := by
  cases i with
  | rbPush => exact .inl (execRbPush_eq_fault h)
  | rbPull => exact .inr (execRbPull_eq_fault h)
  | msEmit => exact .inl (execMsEmit_eq_fault h)
  | init => exact absurd h execInit_ne_fault
  | rbKick | heTsmux | heEncode => cases (afterInit_eq_fault.1 h).2
  | msAcquire => exact absurd h execMsAcquire_ne_fault
  | msRelease => exact absurd h execMsRelease_ne_fault
  | msSend | msSendFrag | ixRegisterIndex => exact absurd h (exec_request_ne_fault rfl)
  | reserved | monitorHeader | indexRecord => cases h

end Sys2Proof.Machine

open Sys2Proof Sys2Proof.Machine

/-- Settles O14: in a legal state `head` and `tail` are slot numbers (R11), and nothing else faults. -/
theorem noFaultFromLegalStates : Obligations.NoFaultFromLegalStates := by
  intro i s f hs h
  rcases exec_eq_fault h with hhead | htail
  · exact absurd hs.headSlot (Nat.not_lt.2 hhead)
  · exact absurd hs.tailSlot (Nat.not_lt.2 htail)
end

section
/-! SUPPORT. An acceptance and a pull touch different state (R148, R27): what the one reads, the other
leaves alone. -/

namespace Sys2Proof.Machine

open Sys2Proof

variable {s u v : State} {p : Nat} {opcode : Half} {payload : List Byte} {time : TimeAnswer}

/-- R73: the two cases of a pull that answers. -/
theorem exec_rbPull_eq_next (h : exec .rbPull s = .next u) :
    (isEmpty s = true ∧ u = reply { s with txActive := false } (.pulled none)) ∨
    (isEmpty s = false ∧ s.tail.toNat < capOf s.cfg ∧
      u = reply (pulledState s) (.pulled (some (Memory.get s.storage s.tail.toNat)))) := by
  cases exec_effect h with
  | pullNone he => exact .inl ⟨he, rfl⟩
  | pullSome he ht => exact .inr ⟨he, ht, rfl⟩
  | disabled _ _ hne => exact absurd rfl hne
  | accepted hrole => cases hrole

/-- R112, R73: by cases on a busy or idle port, and on an empty ring or one with a byte. -/
theorem acceptRequest_rbPull_comm (hs : s.phase ≠ .beforeInit)
    (hreq : acceptRequest p opcode payload time s = .next u) (hpull : exec .rbPull u = .next v) :
    ∃ u' v', exec .rbPull s = .next u' ∧ u'.cfg = s.cfg ∧ u'.phase = .running ∧
      acceptRequest p opcode payload time u' = .next v' ∧ v' = { v with answer := v'.answer } := by
  rcases acceptRequest_cases p opcode payload time s with
    ⟨-, e⟩ | ⟨⟨_, _, _, hbusy⟩, e⟩ | ⟨hidle, e⟩ <;> cases e.symm.trans hreq
  case inr.inl =>
    have hagain (u' : State) (hreq' : u'.req = s.req) :=
      acceptRequest_of_busy opcode payload time (hreq' ▸ hbusy)
    obtain ⟨he, rfl⟩ | ⟨he, ht, rfl⟩ := exec_rbPull_eq_next hpull
    · exact ⟨_, _, execRbPull_of_empty hs he, rfl, rfl, hagain _ rfl, rfl⟩
    · exact ⟨_, _, execRbPull_of_not_empty hs he ht, rfl, rfl, hagain _ rfl, rfl⟩
  case inr.inr =>
    have hagain (u' : State) (hreq' : u'.req = s.req) :=
      acceptRequest_of_idle opcode payload time (hreq' ▸ hidle)
    obtain ⟨he, rfl⟩ | ⟨he, ht, rfl⟩ := exec_rbPull_eq_next hpull
    · exact ⟨_, _, execRbPull_of_empty hs he, rfl, rfl, hagain _ rfl, rfl⟩
    · exact ⟨_, _, execRbPull_of_not_empty hs he ht, rfl, rfl, hagain _ rfl, rfl⟩

end Sys2Proof.Machine

open Sys2Proof Sys2Proof.Machine

/-- Settles O50: each request that is answered is an acceptance, of the same payload before and after the
pull, which leaves the parameters. -/
theorem acceptanceCommutesWithADrain : Obligations.AcceptanceCommutesWithADrain := by
  intro i p s u v hi hreq hpull
  rcases exec_request_cases hi s with ⟨opcode, payload, time, e⟩ | e
  · rw [e s rfl] at hreq
    obtain ⟨hs, hreq⟩ := afterInit_eq_next.1 hreq
    obtain ⟨u', v', hpull', hcfg, hphase, hreq', hv⟩ := acceptRequest_rbPull_comm hs hreq hpull
    refine ⟨u', v', hpull', ?_, hv⟩
    rw [e u' hcfg, afterInit_started u' _ (by simp [hphase]), hreq']
  · rw [e s] at hreq
    cases (afterInit_eq_next.1 hreq).2
end

section
/-! SUPPORT. The flag `F_OVERLEN` (R19, R141): which step sets it, and that no step reads it. -/

namespace Sys2Proof.Machine

open Sys2Proof

variable {i : Instr} {s t : State} {v w : Bool} {r r' : Res}

/-! ### Which step sets it -/

theorem isOverLength_eq_true_iff (len : Nat) : isOverLength len = true ↔ 65526 < len := by
  simp only [isOverLength, decide_eq_true_iff]
  omega

/-- R19: the flag is sticky. -/
theorem Effect.fOverlen_sticky (he : Effect s i t) (hi : i ≠ .init) (h : s.fOverlen = true) :
    t.fOverlen = true := by
  cases he with
  | initDone => exact absurd rfl hi
  | accepted => exact Bool.or_eq_true_iff.2 (.inl h)
  | _ => exact h

/-- R141: the flag is set by the acceptance of a payload beyond the length budget. -/
theorem Effect.setter_of_fOverlen (he : Effect s i t) (hi : i ≠ .init) (h0 : s.fOverlen = false)
    (h1 : t.fOverlen = true) : ∃ p hdr pay, roleOf i = .producer p ∧ s.req[p]? = some .idle ∧
      t.req[p]? = some (.pending hdr pay true) ∧ 65526 < pay.length := by
  cases he with
  | initDone => exact absurd rfl hi
  | @accepted _ p opcode payload time hrole hidle =>
    have hover : isOverLength payload.length = true := by
      simpa [acceptedState, h0] using h1
    refine ⟨p, encodeHeader s.cfg opcode payload.length none time, payload, hrole, hidle, ?_,
      (isOverLength_eq_true_iff _).1 hover⟩
    rw [← hover]
    exact List.getElem?_set_self (List.getElem?_eq_some_iff.1 hidle).1
  | _ => cases h0.symm.trans h1

/-! ### No step reads it -/

/-- `s` with another value of `F_OVERLEN`. -/
def State.withOverlen (s : State) (v : Bool) : State := { s with fOverlen := v }

/-- A push attempt's result with another value of `F_OVERLEN`. -/
def Attempt.withOverlen : Attempt → Bool → Attempt
  | .done t, v => .done (t.withOverlen v)
  | .hold t, v => .hold (t.withOverlen v)
  | .noSlot, _ => .noSlot

/-- A step's outcome with another value of `F_OVERLEN` in the next state. -/
def resWithOverlen (v : Bool) : Res → Res
  | .next t => .next (t.withOverlen v)
  | .fault f => .fault f
  | .refused e => .refused e

theorem afterInit_withOverlen (h : r' = resWithOverlen w r) :
    afterInit (s.withOverlen v) r' = resWithOverlen w (afterInit s r) := by
  subst h
  simp only [afterInit, State.withOverlen]
  cases s.phase <;> rfl

theorem memWrite_withOverlen (s : State) (v : Bool) (a : Half) (b : Byte) :
    memWrite (s.withOverlen v) a b = (memWrite s a b).map (·.withOverlen v) := by
  have hcfg : (s.withOverlen v).cfg = s.cfg := rfl
  rw [memWrite, memWrite, hcfg]
  split <;> rfl

theorem pushAttempt_withOverlen (b : Byte) (s : State) (v : Bool) :
    pushAttempt b (s.withOverlen v) = (pushAttempt b s).withOverlen v := by
  have hfull : isFull (s.withOverlen v) = isFull s := rfl
  have hhead : (s.withOverlen v).head = s.head := rfl
  rw [pushAttempt, pushAttempt, hfull, hhead, memWrite_withOverlen]
  cases isFull s with
  | true => rfl
  | false => cases memWrite s s.head b <;> rfl

theorem execRbPush_withOverlen (b : Byte) (s : State) (v : Bool) :
    execRbPush b (s.withOverlen v) = resWithOverlen v (execRbPush b s) := by
  have hlock : isLocked (s.withOverlen v) = isLocked s := rfl
  refine afterInit_withOverlen ?_
  rw [hlock, pushAttempt_withOverlen]
  cases isLocked s with
  | true => cases pushAttempt b s <;> rfl
  | false => rfl

theorem advancePos_withOverlen (s : State) (v : Bool) :
    advancePos (s.withOverlen v) = (advancePos s).withOverlen v := by
  have hpos : (s.withOverlen v).pos = s.pos := rfl
  rw [advancePos, advancePos, hpos]
  split <;> rfl

theorem execMsEmit_withOverlen (s : State) (v : Bool) :
    execMsEmit (s.withOverlen v) = resWithOverlen v (execMsEmit s) := by
  have hnext : nextByte (s.withOverlen v) = nextByte s := rfl
  refine afterInit_withOverlen ?_
  rw [hnext]
  cases nextByte s with
  | none => rfl
  | some b =>
    simp only [pushAttempt_withOverlen]
    cases pushAttempt b s with
    | done t => simp only [Attempt.withOverlen, advancePos_withOverlen]; rfl
    | hold | noSlot => rfl

theorem pullOne_withOverlen (s : State) (v : Bool) :
    pullOne (s.withOverlen v) = (pullOne s).map (fun (b, t) => (b, t.withOverlen v)) := by
  have hempty : isEmpty (s.withOverlen v) = isEmpty s := rfl
  have hread : memRead (s.withOverlen v) (s.withOverlen v).tail = memRead s s.tail := rfl
  rw [pullOne, pullOne, hempty, hread]
  cases isEmpty s with
  | true => rfl
  | false => cases memRead s s.tail <;> rfl

theorem execRbPull_withOverlen (s : State) (v : Bool) :
    execRbPull (s.withOverlen v) = resWithOverlen v (execRbPull s) := by
  refine afterInit_withOverlen ?_
  rw [pullOne_withOverlen]
  cases pullOne s <;> rfl

theorem execMsAcquire_withOverlen (p : Nat) (s : State) (v : Bool) :
    execMsAcquire p (s.withOverlen v) = resWithOverlen v (execMsAcquire p s) := by
  have hreq : (s.withOverlen v).req = s.req := rfl
  have hlock : (s.withOverlen v).lockOwner = s.lockOwner := rfl
  refine afterInit_withOverlen ?_
  rw [hreq, hlock]
  rcases s.req[p]? with _ | _ | _
  · rfl
  · rfl
  · cases s.lockOwner <;> rfl

theorem execMsRelease_withOverlen (s : State) (v : Bool) :
    execMsRelease (s.withOverlen v) = resWithOverlen v (execMsRelease s) := by
  have hfin : finishedOwner (s.withOverlen v) = finishedOwner s := rfl
  refine afterInit_withOverlen ?_
  rw [hfin]
  cases finishedOwner s <;> rfl

/-- R160: `INIT` overwrites the flag. -/
theorem execInit_withOverlen (s : State) (v : Bool) :
    execInit (s.withOverlen v) = resWithOverlen false (execInit s) := by
  have hphase : (s.withOverlen v).phase = s.phase := rfl
  rw [execInit, execInit, hphase]
  cases s.phase <;> rfl

/-- R112: an acceptance adds its own `ovf` to the flag. -/
theorem acceptRequest_withOverlen (p : Nat) (opcode : Half) (payload : List Byte)
    (time : TimeAnswer) (s : State) (v : Bool) : ∃ w,
    acceptRequest p opcode payload time (s.withOverlen v) =
      resWithOverlen w (acceptRequest p opcode payload time s) := by
  have hreq : (s.withOverlen v).req = s.req := rfl
  rw [acceptRequest, acceptRequest, hreq]
  rcases s.req[p]? with _ | _ | _
  · exact ⟨v, rfl⟩
  · exact ⟨v || isOverLength payload.length, rfl⟩
  · exact ⟨v, rfl⟩

theorem exec_request_withOverlen {p : Nat} (hi : roleOf i = .producer p) (s : State) (v : Bool) :
    ∃ w, exec i (s.withOverlen v) = resWithOverlen w (exec i s) := by
  rcases exec_request_cases hi s with ⟨opcode, payload, time, e⟩ | e
  · obtain ⟨w, hw⟩ := acceptRequest_withOverlen p opcode payload time s v
    rw [e (s.withOverlen v) rfl, e s rfl]
    exact ⟨w, afterInit_withOverlen hw⟩
  · rw [e, e]
    exact ⟨v, afterInit_withOverlen rfl⟩

/-- R19: whatever the value of the flag, a step has the same outcome but for the flag. -/
theorem exec_withOverlen (i : Instr) (s : State) (v : Bool) :
    ∃ w, exec i (s.withOverlen v) = resWithOverlen w (exec i s) := by
  cases i with
  | init => exact ⟨false, execInit_withOverlen s v⟩
  | rbPush b => exact ⟨v, execRbPush_withOverlen b s v⟩
  | rbPull => exact ⟨v, execRbPull_withOverlen s v⟩
  | rbKick | heTsmux | heEncode => exact ⟨v, afterInit_withOverlen rfl⟩
  | msAcquire p => exact ⟨v, execMsAcquire_withOverlen p s v⟩
  | msRelease => exact ⟨v, execMsRelease_withOverlen s v⟩
  | msEmit => exact ⟨v, execMsEmit_withOverlen s v⟩
  | msSend | msSendFrag | ixRegisterIndex => exact exec_request_withOverlen rfl s v
  | reserved | monitorHeader | indexRecord => exact ⟨v, rfl⟩

end Sys2Proof.Machine

open Sys2Proof Sys2Proof.Machine

/-- Settles O45: only an acceptance writes the flag, and no operation looks at it. -/
theorem overLengthFlagIsStickyAndUnread : Obligations.OverLengthFlagIsStickyAndUnread := by
  intro i s t hi h
  have he : Effect s i t := exec_effect h
  refine ⟨he.fOverlen_sticky hi, he.setter_of_fOverlen hi, fun v => ?unread⟩
  case unread =>
    obtain ⟨w, hw⟩ := exec_withOverlen i s v
    exact ⟨w, hw.trans (congrArg (resWithOverlen w) h)⟩
end

section
/-! SUPPORT. Reset and quiescence (R160 to R164): what `INIT` leaves and where it is admitted, what is
refused before it, and what an agent's step can do in a quiescent state. -/

namespace Sys2Proof.Machine

open Sys2Proof

variable {i : Instr} {s t : State}

/-! ### `INIT` -/

/-- R160: where `INIT` is admitted (log entry 3), it resets the block. -/
theorem execInit_of_not_running (hs : s.phase ≠ .running) :
    execInit s = .next (reply (initialised s) .initDone) := by
  cases hp : s.phase with
  | running => exact absurd hp hs
  | beforeInit | justReset => simp only [execInit, hp]

/-- R161: after the first step `INIT` is refused. -/
theorem execInit_of_running (hs : s.phase = .running) : execInit s = .refused .initNotFirst := by
  simp only [execInit, hs]

/-- R29, R13: the empty buffer that `INIT` leaves has room, since it has two slots or more. -/
theorem isFull_initialised (hc : s.cfg.wf = true) : isFull (initialised s) = false := by
  rw [← Bool.not_eq_true]
  intro hfull
  cases isEmpty_of_isFull (s := initialised s) hc (capOf_pos s.cfg) hfull

/-- R24: of the fields of STAT only EMPTY is set where the block is at rest. -/
theorem statView_of_idle (hempty : isEmpty s = true) (hfull : isFull s = false)
    (htx : s.txActive = false) (hlock : s.lockOwner = none) (hover : s.fOverlen = false) :
    statView s = 0x00000001 := by
  rw [statView, hempty, hfull, htx, hover, isLocked, hlock, ownerField_of_free hlock]
  rfl

theorem getElem?_req_initialised {p : Nat} (hp : p < s.cfg.nprod) :
    (initialised s).req[p]? = some .idle :=
  List.getElem?_replicate_of_lt hp

/-! ### Before `INIT` -/

/-- R162: every operation but `INIT` asks first whether `INIT` has happened; the labels of no operation are
refused in any phase. -/
theorem exec_of_beforeInit (hs : s.phase = .beforeInit) (hi : i ≠ .init) :
    ∃ r, exec i s = .refused r := by
  cases i with
  | init => exact absurd rfl hi
  | reserved low => exact ⟨.reservedOpsel low, rfl⟩
  | monitorHeader => exact ⟨.headerIsNoOperation, rfl⟩
  | indexRecord => exact ⟨.recordIsNoOperation, rfl⟩
  | _ => exact ⟨.beforeInit, afterInit_beforeInit s _ hs⟩

/-! ### Quiescence -/

/-- R164: every effect of an agent's step but an acceptance needs a pending request, a held lock or an
active transmitter. -/
theorem Effect.of_quiescent (he : Effect s i t) (hs : Quiescent s) (hi : isAgentStep i = true)
    (hpull : pullAllowed i s) :
    t = reply s .notEnabled ∨ ∃ p, roleOf i = .producer p ∧ t.answer = .accepted p := by
  obtain ⟨hidle, hfree, -, hstopped⟩ := hs
  cases he with
  | disabled => exact .inl rfl
  | accepted hrole => exact .inr ⟨_, hrole, rfl⟩
  | granted _ hpending => cases hidle _ _ hpending
  | released hheld | emitDone hheld | emitHold hheld => cases hfree.symm.trans hheld
  | pullNone | pullSome => cases hstopped.symm.trans (hpull rfl)
  | initDone | pushDone | pushHold | kicked | micros | header => cases hi

end Sys2Proof.Machine

open Sys2Proof Sys2Proof.Machine

/-- Settles O48: what a step can do, where no request is pending, the lock is free and the transmitter is
stopped. -/
theorem quiescentStatesAreQuiet : Obligations.QuiescentStatesAreQuiet :=
  fun _ _ _ hs hi hpull h => (exec_effect h).of_quiescent hs hi hpull

/-- Settles O8: the next state is `initialised s` under its answer. -/
theorem initResetsTheBlock : Obligations.InitResetsTheBlock := by
  intro s hc hs
  have hfull : isFull (initialised s) = false := isFull_initialised hc
  have hstat : statView (initialised s) = 0x00000001 := statView_of_idle rfl hfull rfl rfl rfl
  exact ⟨reply (initialised s) .initDone, execInit_of_not_running hs, rfl, rfl, fun _ => rfl, rfl, rfl,
    rfl, List.length_replicate, fun _ => getElem?_req_initialised, rfl, rfl, rfl, hfull, rfl, hstat, rfl,
    rfl, rfl, rfl⟩

/-- Settles O9: no operation but `INIT` has a meaning before it. -/
theorem nothingRunsBeforeInit : Obligations.NothingRunsBeforeInit :=
  fun _ _ hs hi => exec_of_beforeInit hs hi

/-- Settles O10: the phase alone decides. -/
theorem secondInitIsRefused : Obligations.SecondInitIsRefused :=
  fun _ hs => execInit_of_running hs
end
